-- ==== Sys2Proof/Word.lean ====
section
/-! DEFINITION. The word types of aes_core: every one is unsigned and of fixed width (rule R6 of 00_scope.md). -/

namespace Sys2Proof

/-- An 8-bit unsigned value, a field element of GF(2^8) (rules R6 and R70). -/
abbrev Byte := BitVec 8

/-- A key-schedule word of four bytes, byte 0 in bits [31:24] (rule R48). -/
abbrev Word := BitVec 32

/-- A block, or a State value, of 16 bytes, byte 0 in bits [127:120] (rules R44 and R46). -/
abbrev Block := BitVec 128

/-- The 256-bit key bus, byte 0 in bits [255:248], the key left-aligned (rule R45). -/
abbrev KeyBus := BitVec 256

/-- The `klen` selector, 2 bits (rule R62). -/
abbrev Klen := BitVec 2

/-- The 4-bit issue word ISSUE = (start, klen, op) (rule R60). -/
abbrev IssueWord := BitVec 4

/-- The key-schedule register file: 60 words of 32 bits (rules R5 and R26). -/
abbrev Schedule := Vector Word 60

end Sys2Proof
end

