-- ==== Sys2Proof/Syntax.lean ====
section
/-! DEFINITION. The commands of aes_core, one constructor per row of spec/opcode_table.json, and the command notation of rules
R67 and R68. -/

namespace Sys2Proof

/-- The `op` field, 1 bit, both values legal (rule R61): 0 selects encryption, 1 decryption. -/
inductive Op where
  | encrypt
  | decrypt
deriving DecidableEq, Repr

/-- The three legal key lengths (rule R62). -/
inductive KeyLen where
  | aes128
  | aes192
  | aes256
deriving DecidableEq, Repr

/-- A command: what one issue word says (rule R64). The two data operands are not part of it: they are the buses sampled at the
same edge (rule R63). `nop` and `bad` keep the bits of the word that their rows leave free, so that a word is not changed by
decoding and encoding it. -/
inductive Instr where
  | enc128                          -- ISSUE 1000, rule R122
  | dec128                          -- ISSUE 1001, rule R123
  | enc192                          -- ISSUE 1010, rule R124
  | dec192                          -- ISSUE 1011, rule R125
  | enc256                          -- ISSUE 1100, rule R126
  | dec256                          -- ISSUE 1101, rule R127
  | nop (klen : Klen) (op : Op)     -- ISSUE 0xxx, rule R128
  | bad (op : Op)                   -- ISSUE 111x, rule R152
deriving DecidableEq, Repr

/-- The key length a legal command names; `nop` and `bad` name none (rule R64). -/
def Instr.keyLen : Instr → Option KeyLen
  | .enc128 => some .aes128
  | .dec128 => some .aes128
  | .enc192 => some .aes192
  | .dec192 => some .aes192
  | .enc256 => some .aes256
  | .dec256 => some .aes256
  | .nop _ _ => none
  | .bad _ => none

/-- One line of a program of rule R67: the inputs a host drives during one cycle. Operands are byte strings, byte 0 first
(rule R8); a line that lists none drives the buses at 0 ("Unlisted inputs in a line are 0"). -/
inductive Line where
  | issue (i : Instr) (blk key : List Byte)
  | reset
deriving DecidableEq, Repr

/-- A program line or a pseudo-command of rule R68. -/
inductive Pseudo where
  | line (l : Line)
  | nops (n : Nat)
  | wait
  | run (l : Line)
  | read
deriving DecidableEq, Repr

end Sys2Proof
end

