-- ==== Sys2Proof/WellFormed.lean ====
section
/-! DEFINITION. Which commands and program lines are well formed. -/

namespace Sys2Proof

/-- The number of key bytes of a key length (rule R62). -/
def KeyLen.bytes : KeyLen → Nat
  | .aes128 => 16
  | .aes192 => 24
  | .aes256 => 32

/-- Every command term is well formed: the types of its fields already bound them, every issue word has a row and no encoding is
reserved (rules R64 and R65). Matched constructor by constructor, so that a constructor with a field to check cannot slip past. -/
def Instr.wellFormed : Instr → Bool
  | .enc128 => true
  | .dec128 => true
  | .enc192 => true
  | .dec192 => true
  | .enc256 => true
  | .dec256 => true
  | .nop _ _ => true
  | .bad _ => true

/-- A program line is well formed when a legal command carries a block of exactly 16 bytes (rule R154: "every command carries
exactly 16 block bytes") and a key of exactly its own length (rules R62 and R63, and V-KAT2 and V-KAT3 of 95_test_vectors.md), and
a NOP, BAD or RESET line lists no operand (rule R67). -/
def Line.wellFormed : Line → Bool
  | .issue i blk key =>
    i.wellFormed &&
      match i.keyLen with
      | some k => blk.length == 16 && key.length == k.bytes
      | none => blk.isEmpty && key.isEmpty
  | .reset => true

/-- A pseudo-command is well formed when the line in it is; RUN takes a command that is accepted (a legal one or BAD), since its
WAIT expects a `done` (rule R68). -/
def Pseudo.wellFormed : Pseudo → Bool
  | .line l => l.wellFormed
  | .nops _ => true
  | .wait => true
  | .run (.issue (.nop _ _) _ _) => false
  | .run .reset => false
  | .run l => l.wellFormed
  | .read => true

end Sys2Proof
end

