-- ==== Sys2Proof/Decode.lean ====
section
/-! DEFINITION. The opcode map of rule R64: the decoder, the encoder written from the same table, and the table itself. -/

namespace Sys2Proof

/-- The `op` bit (rule R61). -/
def Op.bit : Op → BitVec 1
  | .encrypt => 0#1
  | .decrypt => 1#1

/-- The operation an `op` bit selects (rule R61). -/
def Op.ofBit (b : BitVec 1) : Op := if b = 0#1 then .encrypt else .decrypt

/-- The `klen` code of a legal key length (rule R62). -/
def KeyLen.code : KeyLen → Klen
  | .aes128 => 0b00#2
  | .aes192 => 0b01#2
  | .aes256 => 0b10#2

/-- Field `start` of an issue word, bit [3] (rule R60). -/
def IssueWord.start (w : IssueWord) : BitVec 1 := w.extractLsb' 3 1

/-- Field `klen` of an issue word, bits [2:1] (rule R60). -/
def IssueWord.klen (w : IssueWord) : Klen := w.extractLsb' 1 2

/-- Field `op` of an issue word, bit [0] (rule R60). -/
def IssueWord.op (w : IssueWord) : Op := Op.ofBit (w.extractLsb' 0 1)

/-- The issue word made of its three fields, `start` in the top bit (rule R60). -/
def IssueWord.ofFields (start : BitVec 1) (klen : Klen) (op : Op) : IssueWord := start ++ klen ++ op.bit

/-- The decoder of rule R64: "if start = 0, NOP; else if klen = 11, illegal; else the command is (op = 0 ? ENC : DEC) with the key
size". It is total: every issue word is one command. -/
def decode (w : IssueWord) : Instr :=
  if w.start = 0#1 then .nop w.klen w.op
  else if w.klen = 0b11#2 then .bad w.op
  else if w.klen = 0b00#2 then
    match w.op with
    | .encrypt => .enc128
    | .decrypt => .dec128
  else if w.klen = 0b01#2 then
    match w.op with
    | .encrypt => .enc192
    | .decrypt => .dec192
  else
    match w.op with
    | .encrypt => .enc256
    | .decrypt => .dec256

/-- Why a byte string holds no issue word. An issue word is 4 bits on ports, never bytes in a memory; as bytes it is one byte with
its upper four bits 0. Log entry 9. -/
inductive DecodeError where
  /-- The string is empty. Safe: no command is invented. -/
  | noWord
  /-- One of bits [7:4] of the byte is 1: the issue word has no such bit (rule R60). Safe: the word is rejected. -/
  | strayBits
deriving DecidableEq, Repr

/-- Read one issue word off the front of a byte string: the command and the bytes after it. -/
def decodeBytes : List Byte → Except DecodeError (Instr × List Byte)
  | [] => .error .noWord
  | b :: rest =>
    if b.extractLsb' 4 4 = 0#4 then .ok (decode (b.extractLsb' 0 4), rest) else .error .strayBits

/-- The issue word of a command, from the encoding column of rule R64 and the lines of rule R67. -/
def encode : Instr → IssueWord
  | .enc128 => 0b1000#4
  | .dec128 => 0b1001#4
  | .enc192 => 0b1010#4
  | .dec192 => 0b1011#4
  | .enc256 => 0b1100#4
  | .dec256 => 0b1101#4
  | .nop klen op => IssueWord.ofFields 0#1 klen op
  | .bad op => IssueWord.ofFields 1#1 0b11#2 op

/-- A command as a byte string: its issue word in the low four bits of one byte. -/
def encodeBytes (i : Instr) : List Byte := [(encode i).setWidth 8]

/-- A row of spec/opcode_table.json: a word belongs to it when its bits under `mask` are those of `pattern`. -/
structure OpcodeRow where
  mnemonic : String
  pattern : IssueWord
  mask : IssueWord
deriving DecidableEq, Repr

/-- The word belongs to the row. -/
def OpcodeRow.covers (r : OpcodeRow) (w : IssueWord) : Bool := (w &&& r.mask) == r.pattern

/-- The opcode map of rule R64, row by row as spec/opcode_table.json gives it. -/
def opcodeTable : List OpcodeRow :=
  [ ⟨"ENC128", 0x8#4, 0xF#4⟩, ⟨"DEC128", 0x9#4, 0xF#4⟩, ⟨"ENC192", 0xA#4, 0xF#4⟩, ⟨"DEC192", 0xB#4, 0xF#4⟩,
    ⟨"ENC256", 0xC#4, 0xF#4⟩, ⟨"DEC256", 0xD#4, 0xF#4⟩, ⟨"NOP", 0x0#4, 0x8#4⟩, ⟨"BAD", 0xE#4, 0xE#4⟩ ]

/-- The name of a command's row in the opcode table. -/
def Instr.mnemonic : Instr → String
  | .enc128 => "ENC128"
  | .dec128 => "DEC128"
  | .enc192 => "ENC192"
  | .dec192 => "DEC192"
  | .enc256 => "ENC256"
  | .dec256 => "DEC256"
  | .nop _ _ => "NOP"
  | .bad _ => "BAD"

/-- The bytes of a table word of `nbits` bits, bit 0 the least significant bit of the first byte; there is at least one. -/
def tableWordBytes (nbits w : Nat) : List Byte :=
  (List.range (max 1 ((nbits + 7) / 8))).map fun k => BitVec.ofNat 8 (w / 2 ^ (8 * k))

/-- The command the decoder reads from a table word whose bits are `w`; none where it is rejected. Nothing may follow the issue
word, so the bytes after the first must be 0, and `w` must fit the bytes it is laid out in. -/
def decodeTableWord (nbits w : Nat) : Option Instr :=
  if w < 2 ^ (8 * (tableWordBytes nbits w).length) then
    match decodeBytes (tableWordBytes nbits w) with
    | .ok (i, rest) => if rest.all (· == 0#8) then some i else none
    | .error _ => none
  else none

end Sys2Proof
end

