-- ==== Sys2Proof/Config.lean ====
section
/-! DEFINITION. What the spec leaves open: values no rule fixes. Each is an opaque constant with no body, so nothing can be
proved about which value it is. -/

namespace Sys2Proof.Config

/-- The clock frequency in hertz, the one OPEN parameter of rule R5 (F_CLK, decision D35). No rule reads it, so no definition
of the model does. -/
opaque fClk : Nat

/-- The bits that register number `n` holds at power-up, before the first edge with `rst = 1`. "From power-up until the first
edge with rst = 1, every register of aes_core is unspecified" (rule R172): a free value each. Log entry 4. -/
opaque powerUpBits : Nat → Nat

/-- The `w_out` bus of aes_key_expand when `rcon_err = 1`: unspecified (rule R108, entry U4 of 93_implementation_defined.md),
so a free value of the inputs. No klen makes `rcon_err` 1. Log entry 8. -/
opaque wOutOnRconError : KeyBus → Klen → BitVec 1920

end Sys2Proof.Config
end

