-- ==== Sys2Proof/Machine/State.lean ====
section
/-! DEFINITION. The state of aes_core as plain data, the reasons a step can stop, and the state after reset. -/

namespace Sys2Proof.Machine

/-- The round state machine's state, 3 bits: five named values and three unused encodings, which rule R139 gives a recovery
(rule R20). -/
inductive Fsm where
  | idle
  | keyexp
  | init
  | round
  | final
  | unused5
  | unused6
  | unused7
deriving DecidableEq, Repr

/-- The levels on the input ports of aes_core during one cycle, sampled at the rising edge of `clk` that ends it (rules R10 and
R15). -/
structure Ports where
  rst   : Bool
  start : Bool
  op    : Op
  klen  : Klen
  blkIn : Block
  keyIn : KeyBus
deriving DecidableEq, Repr

/-- Everything the spec gives aes_core: the registers of rules R20 to R31, each under its own name, and the input ports. The last
two fields are the model's own: `resetSeen` says whether an edge with `rst = 1` has happened since power-up (rule R172), and `host`
holds the port levels the outside world drives, one entry a cycle, the current cycle's first (log entries 1 and 4). -/
structure State where
  fsm       : Fsm
  st        : Block
  keyR      : KeyBus
  opR       : Op
  klenR     : Klen
  rnd       : BitVec 4
  sched     : Schedule
  blkOut    : Block
  done      : Bool
  err       : Bool
  errCode   : BitVec 2
  resetSeen : Bool
  host      : List Ports
deriving DecidableEq, Repr

/-- Why the machine stops with a fault. No state that a run from a reset reaches raises one. -/
inductive Fault where
  /-- Raised by every command and round edge with `rst = 0` before the first reset: the treatment entry U2 of
  93_implementation_defined.md gives rule R172. Safe: the model stops where the hardware does something unspecified. -/
  | edgeBeforeReset
  /-- Raised by reading the output ports before the first reset (rule R172: "reading an output before the first reset is a
  fault"). Safe: no meaning is given to an output that carries none. -/
  | outputBeforeReset
  /-- Raised by a ROUND edge whose `rnd` is 15: `SCHED` has no words 60 to 63, so there is no round key 15, and "rnd: Values 0 to 14
  occur; 15 never does" (rule R25). Safe: the model stops where the spec gives no value. Log entry 7. -/
  | noSuchRoundKey
deriving DecidableEq, Repr

/-- Why a command has no meaning. -/
inductive Refusal where
  /-- Raised by a dispatch arm whose command has no meaning yet; no arm is so. Safe: the model stops. -/
  | notModelled (mnemonic : String)
deriving DecidableEq, Repr

/-- The machine right after reset (rule R36). The values of `fsm`, `blkOut`, `done`, `err` and `errCode` are the spec's. The spec
gives the data registers `st`, `keyR`, `opR`, `klenR`, `rnd` and `sched` no reset value, and zero here is a DESIGN CHOICE (log
entry 2). No port level is listed yet (log entry 1). -/
def State.reset : State where
  fsm       := .idle
  st        := 0#128
  keyR      := 0#256
  opR       := .encrypt
  klenR     := 0b00#2
  rnd       := 0#4
  sched     := Vector.replicate 60 0#32
  blkOut    := 0#128
  done      := false
  err       := false
  errCode   := 0b00#2
  resetSeen := true
  host      := []

end Sys2Proof.Machine
end

