-- ==== Sys2Proof/Machine/Operands.lean ====
section
/-! DEFINITION. The byte order of every bus and register (rules R44 to R49), the field accessors, and the operands of a command. -/

namespace Sys2Proof.Machine

/-! ### Packing and unpacking, the first element in the most significant place -/

/-- Values packed into one bit vector, the first in the most significant place. -/
def pack (w n : Nat) (xs : List (BitVec w)) : BitVec n :=
  xs.foldl (fun acc x => (acc <<< w) ||| x.setWidth n) 0#n

/-- Block byte `k`, bits [127-8k : 120-8k], byte 0 the most significant (rule R44). -/
def blockByte (b : Block) (k : Nat) : Byte := b.extractLsb' (120 - 8 * k) 8

/-- The block whose byte `k` is `f k` (rule R44). -/
def blockOfBytes (f : Nat → Byte) : Block := pack 8 128 ((List.range 16).map f)

/-- The State byte at row `r`, column `c`: `S(st, r, c) = st[127 - 8*(r + 4*c) : 120 - 8*(r + 4*c)]` (rule R46). -/
def stateByte (st : Block) (r c : Nat) : Byte := blockByte st (r + 4 * c)

/-- The State whose byte at row `r`, column `c` is `f r c`: column-major placement (rule R46). -/
def stateOfBytes (f : Nat → Nat → Byte) : Block := blockOfBytes fun k => f (k % 4) (k / 4)

/-- The block-to-state conversion, "the identity on the 128 bits" (rule R46). -/
def bytesToState (b : Block) : Block := b

/-- The state-to-block conversion, the exact inverse of the other and again the identity on the register (rule R47). -/
def stateToBytes (st : Block) : Block := st

/-- Key byte `k`, `key_in[255-8k : 248-8k]` (rule R45). -/
def keyByte (key : KeyBus) (k : Nat) : Byte := key.extractLsb' (248 - 8 * k) 8

/-- Key word `i`, `key_in[255-32i : 224-32i]` (rule R48). -/
def keyWord (key : KeyBus) (i : Nat) : Word := key.extractLsb' (224 - 32 * i) 32

/-- Byte `r` of a word, bits [31-8r : 24-8r] (rule R48). -/
def wordByte (w : Word) (r : Nat) : Byte := w.extractLsb' (24 - 8 * r) 8

/-- The word of four bytes `[a0, a1, a2, a3]`, a0 in bits [31:24] (rule R48). -/
def wordOfBytes (a0 a1 a2 a3 : Byte) : Word := a0 ++ a1 ++ a2 ++ a3

/-- Round key `j`, `RK(j) = (SCHED[4j], SCHED[4j+1], SCHED[4j+2], SCHED[4j+3])` (rule R49). There are 15 of them: `SCHED` has 60
words. -/
def roundKey (sched : Schedule) (j : Fin 15) : Block :=
  sched[4 * j.val] ++ sched[4 * j.val + 1] ++ sched[4 * j.val + 2] ++ sched[4 * j.val + 3]

/-! ### Codes -/

/-- The 3-bit encoding of a state of the state machine (rule R20). -/
def Fsm.code : Fsm → BitVec 3
  | .idle => 0#3
  | .keyexp => 1#3
  | .init => 2#3
  | .round => 3#3
  | .final => 4#3
  | .unused5 => 5#3
  | .unused6 => 6#3
  | .unused7 => 7#3

/-- The state of the state machine that three bits encode (rule R20). -/
def Fsm.ofCode (b : BitVec 3) : Fsm :=
  match b.toNat with
  | 0 => .idle
  | 1 => .keyexp
  | 2 => .init
  | 3 => .round
  | 4 => .final
  | 5 => .unused5
  | 6 => .unused6
  | _ => .unused7

/-! ### The ports and the operands of a command -/

/-- The port levels of a cycle for which the host list says nothing: every input 0 ("Unlisted inputs in a line are 0", rule R67).
DESIGN CHOICE, log entry 1. -/
def Ports.low : Ports :=
  { rst := false, start := false, op := .encrypt, klen := 0b00#2, blkIn := 0#128, keyIn := 0#256 }

/-- The levels on the input ports in the current cycle. -/
def State.ports (s : State) : Ports := s.host.headD Ports.low

/-- The levels on the input ports `n` cycles from now. -/
def State.portsAt (s : State) (n : Nat) : Ports := s.host.getD n Ports.low

/-- The issue word formed from the input ports (rule R60). -/
def issueWord (p : Ports) : IssueWord := IssueWord.ofFields (if p.start then 1#1 else 0#1) p.klen p.op

/-- The command the input ports present in the current cycle (rules R60 and R64). -/
def State.command (s : State) : Instr := decode (issueWord s.ports)

end Sys2Proof.Machine
end

