-- ==== Sys2Proof/Machine/Galois.lean ====
section
/-! DEFINITION. GF(2^8) arithmetic: the fixed multipliers and the block galois_mult_8 (40_galois.md), and the generating definition
of the S-box (rule R50). -/

namespace Sys2Proof.Machine

/-- One bit repeated over a byte: `{8{b}}` of the spec's masks (rules R71 and R76). -/
def byteMask (b : Bool) : Byte := if b then 0xff#8 else 0x00#8

/-- Multiply by {02}: `{ b[6:0], 1'b0 } ^ ( {8{b[7]}} & 8'h1B )` (rule R71). -/
def xtime (b : Byte) : Byte := (b.extractLsb' 0 7 ++ 0#1) ^^^ (byteMask (b.getLsbD 7) &&& 0x1b#8)

/-- Multiply by {03}: `xtime(b) ^ b` (rule R77). -/
def mul3 (b : Byte) : Byte := xtime b ^^^ b

/-- Multiply by {09} (rule R72). -/
def mul9 (b : Byte) : Byte := xtime (xtime (xtime b)) ^^^ b

/-- Multiply by {0B} (rule R73). -/
def mulB (b : Byte) : Byte := xtime (xtime (xtime b) ^^^ b) ^^^ b

/-- Multiply by {0D} (rule R74). -/
def mulD (b : Byte) : Byte := xtime (xtime (xtime b ^^^ b)) ^^^ b

/-- Multiply by {0E} (rule R75). -/
def mulE (b : Byte) : Byte := xtime (xtime (xtime b ^^^ b) ^^^ b)

/-- The loop of rule R76 over the bits `i` of `b`: `p <- p ^ (t & {8{b[i]}})`, then `t <- xtime(t)`. -/
def galoisLoop (b : Byte) : List Nat → Byte → Byte → Byte
  | [], p, _ => p
  | i :: is, p, t => galoisLoop b is (p ^^^ (t &&& byteMask (b.getLsbD i))) (xtime t)

/-- The block galois_mult_8: output `p = a • b`, shift and add over bits 0 to 7 of `b` (rules R13 and R76). -/
def galoisMult8 (a b : Byte) : Byte := galoisLoop b [0, 1, 2, 3, 4, 5, 6, 7] 0x00#8 a

/-! ### The product of rule R70, by polynomials: an independent definition of the same values -/

/-- The product of two bytes as polynomials over GF(2), not reduced: 15 bits (rule R70). -/
def polyMul (a b : Byte) : BitVec 15 :=
  (List.range 8).foldl (fun acc i => acc ^^^ (if b.getLsbD i then a.setWidth 15 <<< i else 0#15)) 0#15

/-- The remainder modulo `m(x) = x^8 + x^4 + x^3 + x + 1`, 0x11B as a 9-bit value: bits 14 down to 8 are cleared one by one
(rule R70). -/
def polyReduce (v : BitVec 15) : Byte :=
  ([6, 5, 4, 3, 2, 1, 0].foldl (fun acc i => if acc.getLsbD (i + 8) then acc ^^^ (0x11b#15 <<< i) else acc) v).setWidth 8

/-! ### The generating definition of the S-box (rule R50) -/

/-- Repeated squaring: `a^(2^n)`. -/
def gfSquares (a : Byte) : Nat → Byte
  | 0 => a
  | n + 1 => gfSquares (galoisMult8 a a) n

/-- The inverse in GF(2^8), with `0^-1 = 0` (rule R50), as `a^254 = a^2 • a^4 • … • a^128`. DEDUCED: the spec names the inverse, and
not this way to compute it. Log entry 15. -/
def gfInv (a : Byte) : Byte :=
  [1, 2, 3, 4, 5, 6, 7].foldl (fun acc n => galoisMult8 acc (gfSquares a n)) 0x01#8

/-- `rotl8(y, s) = ((y << s) | (y >> (8-s)))[7:0]` (rule R50). -/
def rotl8 (y : Byte) (s : Nat) : Byte := (y <<< s) ||| (y >>> (8 - s))

/-- The affine map of rule R50. -/
def sboxAffine (y : Byte) : Byte := y ^^^ rotl8 y 1 ^^^ rotl8 y 2 ^^^ rotl8 y 3 ^^^ rotl8 y 4 ^^^ 0x63#8

/-- The S-box entry that the generating definition gives (rule R50). Where it and the table differed, the table would govern. -/
def sboxGenerated (x : Byte) : Byte := sboxAffine (gfInv x)

end Sys2Proof.Machine
end

