-- ==== Sys2Proof/Machine/Forward.lean ====
section
/-! DEFINITION. The forward round transformations (41_round_forward.md): pure functions from State to State. -/

namespace Sys2Proof.Machine

/-- SubBytes: every byte through the S-box (rule R80). -/
def subBytes (st : Block) : Block := stateOfBytes fun r c => romSbox (stateByte st r c)

/-- ShiftRows: row `r` rotated left by `r` positions (rule R81). -/
def shiftRows (st : Block) : Block := stateOfBytes fun r c => stateByte st r ((c + r) % 4)

/-- Output byte `i` of one column of MixColumns, from the column `a` before it (rule R82):
`a_i ^ t ^ xtime(a_i ^ a_((i+1) mod 4))`. -/
def mixByte (a : Nat → Byte) (i : Nat) : Byte :=
  a i ^^^ (a 0 ^^^ a 1 ^^^ a 2 ^^^ a 3) ^^^ xtime (a i ^^^ a ((i + 1) % 4))

/-- MixColumns: each column multiplied by `{03}x^3+{01}x^2+{01}x+{02}` modulo `x^4+1` (rule R82). -/
def mixColumns (st : Block) : Block := stateOfBytes fun r c => mixByte (fun i => stateByte st i c) r

/-- AddRoundKey with round key `j` of the schedule (rules R83 and R93). -/
def addRoundKey (sched : Schedule) (st : Block) (j : Fin 15) : Block := st ^^^ roundKey sched j

/-- `EncRound(st, j)` (rule R85). -/
def encRound (sched : Schedule) (st : Block) (j : Fin 15) : Block :=
  addRoundKey sched (mixColumns (shiftRows (subBytes st))) j

/-- `EncFinal(st)`, the last round with no MixColumns, for `nr` rounds (rule R85). -/
def encFinal (sched : Schedule) (nr : Fin 15) (st : Block) : Block :=
  addRoundKey sched (shiftRows (subBytes st)) nr

/-- Output byte `i` of one column in the matrix form of MixColumns (rule R84): row `i` of the circulant matrix of (02, 03, 01, 01)
times the column `a`. -/
def mixByteMatrix (a : Nat → Byte) (i : Nat) : Byte :=
  xtime (a i) ^^^ mul3 (a ((i + 1) % 4)) ^^^ a ((i + 2) % 4) ^^^ a ((i + 3) % 4)

end Sys2Proof.Machine
end

