-- ==== Sys2Proof/Machine/Inverse.lean ====
section
/-! DEFINITION. The inverse round transformations (42_round_inverse.md). AddRoundKey is the forward one (rule R93). -/

namespace Sys2Proof.Machine

/-- InvShiftRows: row `r` rotated right by `r` positions, byte (r, c) from `(c - r) mod 4` (rule R90). -/
def invShiftRows (st : Block) : Block := stateOfBytes fun r c => stateByte st r ((c + 4 - r) % 4)

/-- InvSubBytes: every byte through the inverse S-box (rule R91). -/
def invSubBytes (st : Block) : Block := stateOfBytes fun r c => romInvSbox (stateByte st r c)

/-- Output byte `i` of one column of InvMixColumns, from the column `a` before it (rule R92). -/
def invMixByte (a : Nat → Byte) (i : Nat) : Byte :=
  mulE (a i) ^^^ mulB (a ((i + 1) % 4)) ^^^ mulD (a ((i + 2) % 4)) ^^^ mul9 (a ((i + 3) % 4))

/-- InvMixColumns: each column multiplied by the inverse matrix (rule R92). -/
def invMixColumns (st : Block) : Block := stateOfBytes fun r c => invMixByte (fun i => stateByte st i c) r

/-- `DecRound(st, j)` (rule R95). -/
def decRound (sched : Schedule) (st : Block) (j : Fin 15) : Block :=
  invMixColumns (addRoundKey sched (invSubBytes (invShiftRows st)) j)

/-- `DecFinal(st)`, with round key 0 (rule R95). -/
def decFinal (sched : Schedule) (st : Block) : Block :=
  addRoundKey sched (invSubBytes (invShiftRows st)) 0

end Sys2Proof.Machine
end

