-- ==== Sys2Proof/Machine/KeyExpand.lean ====
section
/-! DEFINITION. The block aes_key_expand (43_key_expand.md): a pure function of `key[255:0]` and `klen[1:0]`, with no state (rules
R35, R100 and R110). -/

namespace Sys2Proof.Machine

/-- Nk, the number of key words for a klen code; 0 for the illegal code (rules R101 and R102). -/
def nkOf (klen : Klen) : Nat :=
  if klen = 0b00#2 then 4 else if klen = 0b01#2 then 6 else if klen = 0b10#2 then 8 else 0

/-- Nr, the number of rounds for a klen code; 0 for the illegal code (rules R101 and R102; DESIGN CHOICE for a busy machine, log entry
6). It is at most 14, so it names a round key. -/
def nrOf (klen : Klen) : Fin 15 :=
  if klen = 0b00#2 then 10 else if klen = 0b01#2 then 12 else if klen = 0b10#2 then 14 else 0

/-- The number of schedule words, `4·(Nr+1)` (rule R102). -/
def scheduleLength (klen : Klen) : Nat := 4 * ((nrOf klen).val + 1)

/-- RotWord: `{ w[23:0], w[31:24] }` (rule R106). -/
def rotWord (w : Word) : Word := w.extractLsb' 0 24 ++ w.extractLsb' 24 8

/-- SubWord: the S-box on each byte of a word (rule R104). -/
def subWord (w : Word) : Word :=
  wordOfBytes (romSbox (wordByte w 0)) (romSbox (wordByte w 1)) (romSbox (wordByte w 2)) (romSbox (wordByte w 3))

/-- `Rcon(j)`: the word `{ ROM_RCON[j], 24'h000000 }`, or none, which is the RCON_RANGE condition, for j outside 1..10
(rule R103). -/
def rcon (j : Nat) : Option Word := (romRcon j).map fun b => wordOfBytes b 0#8 0#8 0#8

/-- The loop body of rule R105: word `i` from `prev = w[i-1]` and `back = w[i-Nk]`; none where it asks for a round constant outside
the table. -/
def nextWord (nk i : Nat) (prev back : Word) : Option Word :=
  if i % nk = 0 then (rcon (i / nk)).map fun rc => back ^^^ (subWord (rotWord prev) ^^^ rc)
  else if nk > 6 ∧ i % nk = 4 then some (back ^^^ subWord prev)
  else some (back ^^^ prev)

/-- The loop of rule R105: `n` more words after the words `ws`, where `i = ws.length`. -/
def expandWords (nk : Nat) : Nat → List Word → Option (List Word)
  | 0, ws => some ws
  | n + 1, ws =>
    match nextWord nk ws.length (ws.getD (ws.length - 1) 0#32) (ws.getD (ws.length - nk) 0#32) with
    | some w => expandWords nk n (ws ++ [w])
    | none => none

/-- The seed of the schedule: the key words 0 to Nk-1 (rule R105). -/
def seedWords (key : KeyBus) (klen : Klen) : List Word := (List.range (nkOf klen)).map (keyWord key)

/-- The schedule words `w[0 .. 4·(Nr+1)-1]` for a legal klen (rule R105); none on RCON_RANGE. -/
def scheduleWords (key : KeyBus) (klen : Klen) : Option (List Word) :=
  expandWords (nkOf klen) (scheduleLength klen - nkOf klen) (seedWords key klen)

/-- The words packed onto `w_out`, word `i` in bits [1919-32i : 1888-32i], and zeros for the words up to 59 (rules R12 and R107). -/
def packSchedule (ws : List Word) : BitVec 1920 := pack 32 1920 (ws ++ List.replicate (60 - ws.length) 0#32)

/-- Word `i` of a `w_out` bus, `w_out[1919-32i : 1888-32i]` (rules R12 and R107). -/
def wOutWord (w : BitVec 1920) (i : Nat) : Word := w.extractLsb' (1888 - 32 * i) 32

/-- The output ports of aes_key_expand (rule R12). -/
structure KeyExpandOut where
  wOut    : BitVec 1920
  nr      : BitVec 4
  nk      : BitVec 4
  kerr    : Bool
  rconErr : Bool
deriving DecidableEq, Repr

/-- The block aes_key_expand. `klen = 11` gives `kerr = 1` and every other output 0 (rule R101); for a legal klen the outputs are
those of rules R102 to R108, where `w_out` is a free value if `rcon_err = 1` (rule R108, log entry 8). -/
def keyExpand (key : KeyBus) (klen : Klen) : KeyExpandOut :=
  if klen = 0b11#2 then { wOut := 0#1920, nr := 0#4, nk := 0#4, kerr := true, rconErr := false }
  else
    match scheduleWords key klen with
    | some ws =>
      { wOut := packSchedule ws, nr := BitVec.ofNat 4 (nrOf klen).val, nk := BitVec.ofNat 4 (nkOf klen),
        kerr := false, rconErr := false }
    | none =>
      { wOut := Config.wOutOnRconError key klen, nr := BitVec.ofNat 4 (nrOf klen).val,
        nk := BitVec.ofNat 4 (nkOf klen), kerr := false, rconErr := true }

/-- The 60 words of a `w_out` bus, as `SCHED` takes them (rules R26 and R132). -/
def scheduleOf (wOut : BitVec 1920) : Schedule := Vector.ofFn fun i : Fin 60 => wOutWord wOut i.val

end Sys2Proof.Machine
end

