-- ==== Sys2Proof/Machine/Cipher.lean ====
section
/-! DEFINITION. The cipher functions AES_ENC and AES_DEC (rules R120 and R121): the values the round state machine computes. -/

namespace Sys2Proof.Machine

/-- The number of rounds of a legal key length (rule R102). -/
def roundsOf (k : KeyLen) : Fin 15 := nrOf k.code

/-- The rounds 1 to Nr-1 in ascending order (rule R120). -/
def fullRounds (nr : Fin 15) : List (Fin 15) := (List.finRange 15).filter fun j => 1 ≤ j.val ∧ j.val < nr.val

/-- `AES_ENC(blk, key, klen)`, the forward cipher (rule R120). -/
def aesEnc (blk : Block) (key : KeyBus) (k : KeyLen) : Block :=
  let w := scheduleOf (keyExpand key k.code).wOut
  let st := addRoundKey w (bytesToState blk) 0
  let st := (fullRounds (roundsOf k)).foldl (encRound w) st
  stateToBytes (encFinal w (roundsOf k) st)

/-- `AES_DEC(blk, key, klen)`, the inverse cipher: the rounds Nr-1 down to 1 (rule R121). -/
def aesDec (blk : Block) (key : KeyBus) (k : KeyLen) : Block :=
  let w := scheduleOf (keyExpand key k.code).wOut
  let st := addRoundKey w (bytesToState blk) (roundsOf k)
  let st := (fullRounds (roundsOf k)).reverse.foldl (decRound w) st
  stateToBytes (decFinal w st)

/-- The cipher function an `op` selects (rule R61). -/
def cipher (op : Op) (blk : Block) (key : KeyBus) (k : KeyLen) : Block :=
  match op with
  | .encrypt => aesEnc blk key k
  | .decrypt => aesDec blk key k

end Sys2Proof.Machine
end

