-- ==== Sys2Proof/Machine/Flags.lean ====
section
/-! DEFINITION. The status flags `busy`, `done`, `err` and `err_code` and every rule that computes or writes them (rules R14, R28,
R29, R31, R33 and R151). -/

namespace Sys2Proof.Machine

/-- The error codes that are ever written (rule R151). The reserved code 2'b11 is none of them (entry U6). -/
inductive ErrCode where
  | none
  | klenInvalid
  | rconRange
deriving DecidableEq, Repr

/-- The value of `err_code` for an error (rule R151). -/
def ErrCode.bits : ErrCode → BitVec 2
  | .none => 0b00#2
  | .klenInvalid => 0b01#2
  | .rconRange => 0b10#2

/-- `busy = (fsm != IDLE)`, combinational (rule R14). -/
def State.busy (s : State) : Bool := s.fsm != .idle

/-- `done <- 1` or `done <- 0` (rule R28). -/
def State.setDone (s : State) (b : Bool) : State := { s with done := b }

/-- `err <- 0` and `err_code <- 00`, written at the acceptance of a legal command (rules R29 and R131). -/
def State.clearError (s : State) : State := { s with err := false, errCode := ErrCode.none.bits }

/-- `err <- 1` with a code: the two are written together (rules R29 and R31). -/
def State.setError (s : State) (c : ErrCode) : State := { s with err := true, errCode := c.bits }

/-- The levels on the output ports in one cycle (rule R11). -/
structure Outputs where
  blkOut  : Block
  busy    : Bool
  done    : Bool
  err     : Bool
  errCode : BitVec 2
deriving DecidableEq, Repr

/-- What the registers drive onto the output ports (rule R11). -/
def State.outputs (s : State) : Outputs :=
  { blkOut := s.blkOut, busy := s.busy, done := s.done, err := s.err, errCode := s.errCode }

/-- Reading the output ports, which changes nothing (rule R52) and is a fault before the first reset (rule R172, entry U2). -/
def readOutputs (s : State) : Host.Outcome Outputs Fault Refusal :=
  if s.resetSeen then .next s.outputs else .fault .outputBeforeReset

end Sys2Proof.Machine
end

