-- ==== Sys2Proof/Machine/Ops.lean ====
section
/-! DEFINITION. The operations on the registers that the commands and the state machine share: accepting a legal command,
rejecting one, reset, and the passing of a cycle. aes_core has no trap and no return from one (rules R157 and R158): its one form of
exception is a rejected command, `State.reject` below, and nothing returns from it. There is no memory (rule R43). -/

namespace Sys2Proof.Machine

/-- Accepting a legal command (rule R131): the operands and the selectors are latched, the error is cleared, and the state machine
goes to KEYEXP. `blkOut`, `rnd` and `sched` do not change. -/
def State.accept (s : State) (k : KeyLen) (op : Op) : State :=
  { ((s.clearError).setDone false) with
    st := s.ports.blkIn, keyR := s.ports.keyIn, opR := op, klenR := k.code, fsm := .keyexp }

/-- Rejecting a command, the one shared form of every error (rules R150, R152 and R153): `err <- 1`, the code, `done <- 1`, and the
state machine is in IDLE. No other register changes, nothing is saved and control goes nowhere (rule R157). -/
def State.reject (s : State) (c : ErrCode) : State := { ((s.setError c).setDone true) with fsm := .idle }

/-- An edge with `rst = 1` (rule R170): the registers a host can see take their reset values, the data registers are not written
(log entry 3), and from here on the machine has seen a reset (rule R172). -/
def State.resetEdge (s : State) : State :=
  { s with fsm := .idle, done := false, err := false, errCode := ErrCode.none.bits, blkOut := 0#128, resetSeen := true }

/-- The cycle is over: the port levels the host drove in it are used up (log entry 1). -/
def State.nextCycle (s : State) : State := { s with host := s.host.tail }

/-- The machine at power-up: every register holds a free value, and no reset has been seen (rule R172, log entry 4). -/
def State.powerUp (host : List Ports) : State :=
  { fsm := Fsm.ofCode (BitVec.ofNat 3 (Config.powerUpBits 0))
    st := BitVec.ofNat 128 (Config.powerUpBits 1)
    keyR := BitVec.ofNat 256 (Config.powerUpBits 2)
    opR := Op.ofBit (BitVec.ofNat 1 (Config.powerUpBits 3))
    klenR := BitVec.ofNat 2 (Config.powerUpBits 4)
    rnd := BitVec.ofNat 4 (Config.powerUpBits 5)
    blkOut := BitVec.ofNat 128 (Config.powerUpBits 6)
    done := Config.powerUpBits 7 % 2 == 1
    err := Config.powerUpBits 8 % 2 == 1
    errCode := BitVec.ofNat 2 (Config.powerUpBits 9)
    sched := Vector.ofFn fun i : Fin 60 => BitVec.ofNat 32 (Config.powerUpBits (10 + i.val))
    resetSeen := false
    host := host }

/-- Go on with the next state, or stop where it stopped. -/
def andThen (o : Host.Outcome State Fault Refusal) (f : State → State) : Host.Outcome State Fault Refusal :=
  match o with
  | .next s => .next (f s)
  | .fault r => .fault r
  | .refused r => .refused r

end Sys2Proof.Machine
end

