-- ==== Sys2Proof/Machine/RoundFsm.lean ====
section
/-! DEFINITION. The round state machine (44_block_cipher.md, section 3): one function for the edge that ends each of its states, and
`clockEdge`, the edge with `rst = 0` that the meaning of every command goes through. Every register read below is the value before
the edge (rules R7 and R180). -/

namespace Sys2Proof.Machine

/-- The KEYEXP edge (rules R132 and R153): `SCHED` takes all 60 words of aes_key_expand's `w_out`, or the command is rejected with
RCON_RANGE. -/
def keyexpEdge (s : State) : State :=
  let e := keyExpand s.keyR s.klenR
  if e.rconErr then s.reject .rconRange
  else { (s.setDone false) with sched := scheduleOf e.wOut, fsm := .init }

/-- The INIT edge (rule R133): AddRoundKey 0 and `rnd <- 1` to encrypt, AddRoundKey Nr and `rnd <- Nr - 1` to decrypt. -/
def initEdge (s : State) : State :=
  let nr := nrOf s.klenR
  match s.opR with
  | .encrypt => { (s.setDone false) with st := addRoundKey s.sched s.st 0, rnd := 1#4, fsm := .round }
  | .decrypt =>
    { (s.setDone false) with st := addRoundKey s.sched s.st nr, rnd := BitVec.ofNat 4 nr.val - 1#4, fsm := .round }

/-- The ROUND edge with round key `j`, which is `rnd` (rules R134 and R135). -/
def roundEdgeWith (s : State) (j : Fin 15) : State :=
  match s.opR with
  | .encrypt =>
    { (s.setDone false) with
      st := encRound s.sched s.st j
      fsm := if s.rnd = BitVec.ofNat 4 (nrOf s.klenR).val - 1#4 then .final else .round
      rnd := s.rnd + 1#4 }
  | .decrypt =>
    { (s.setDone false) with
      st := decRound s.sched s.st j
      fsm := if s.rnd = 1#4 then .final else .round
      rnd := s.rnd - 1#4 }

/-- The ROUND edge (rules R134 and R135). `rnd` is never 15 (rule R25); were it, there would be no round key to use
(log entry 7). -/
def roundEdge (s : State) : Host.Outcome State Fault Refusal :=
  if h : s.rnd.toNat < 15 then .next (roundEdgeWith s ⟨s.rnd.toNat, h⟩) else .fault .noSuchRoundKey

/-- The value the FINAL edge computes (rule R136): EncFinal with round key Nr or DecFinal with round key 0, which is the round key of
`rnd` in FINAL (DEDUCED, log entry 16). -/
def finalValue (s : State) : Block :=
  match s.opR with
  | .encrypt => encFinal s.sched (nrOf s.klenR) s.st
  | .decrypt => decFinal s.sched s.st

/-- The FINAL edge (rule R136): the result goes to `st` and to `blk_out`, and `done` rises. `err` and `err_code` keep their
values. -/
def finalEdge (s : State) : State :=
  { (s.setDone true) with st := finalValue s, blkOut := stateToBytes (finalValue s), fsm := .idle }

/-- The edge in an unused encoding (rule R139): "set fsm <- IDLE and done <- 0 and change nothing else" (log entry
5). -/
def unusedEdge (s : State) : State := { (s.setDone false) with fsm := .idle }

/-- An edge with `rst = 0` at which a command is presented whose effect in IDLE is `onIdle`. The command is taken only in IDLE; in
every other state the inputs are not read and the state's own rule runs (rules R129, R130, R141 and R156; log entry 12). Before the
first reset the edge is a fault (rule R172, entry U2; log entry 4). -/
def clockEdge (onIdle : State → State) (s : State) : Host.Outcome State Fault Refusal :=
  if s.resetSeen then
    match s.fsm with
    | .idle => .next (onIdle s)
    | .keyexp => .next (keyexpEdge s)
    | .init => .next (initEdge s)
    | .round => roundEdge s
    | .final => .next (finalEdge s)
    | .unused5 => .next (unusedEdge s)
    | .unused6 => .next (unusedEdge s)
    | .unused7 => .next (unusedEdge s)
  else .fault .edgeBeforeReset

end Sys2Proof.Machine
end

