-- ==== Sys2Proof/Machine/Commands.lean ====
section
/-! DEFINITION. The meaning of each command of rule R64: the edge with `rst = 0` at which its issue word is on the ports. In IDLE a
legal command is accepted; the edges that follow compute its result, the last of them writing `blk_out` (rules R122 to R127 and
R142). In any other state the command is lost (rule R141). -/

namespace Sys2Proof.Machine

/-- ENC128 (rules R122 and R131). -/
def execEnc128 (s : State) : Host.Outcome State Fault Refusal := clockEdge (fun s => s.accept .aes128 .encrypt) s

/-- DEC128 (rules R123 and R131). -/
def execDec128 (s : State) : Host.Outcome State Fault Refusal := clockEdge (fun s => s.accept .aes128 .decrypt) s

/-- ENC192 (rules R124 and R131). -/
def execEnc192 (s : State) : Host.Outcome State Fault Refusal := clockEdge (fun s => s.accept .aes192 .encrypt) s

/-- DEC192 (rules R125 and R131). -/
def execDec192 (s : State) : Host.Outcome State Fault Refusal := clockEdge (fun s => s.accept .aes192 .decrypt) s

/-- ENC256 (rules R126 and R131). -/
def execEnc256 (s : State) : Host.Outcome State Fault Refusal := clockEdge (fun s => s.accept .aes256 .encrypt) s

/-- DEC256 (rules R127 and R131). -/
def execDec256 (s : State) : Host.Outcome State Fault Refusal := clockEdge (fun s => s.accept .aes256 .decrypt) s

/-- NOP: `done <- 0` and nothing else; the other bits of the word and the operand buses are not read (rule R128). -/
def execNop (s : State) : Host.Outcome State Fault Refusal := clockEdge (fun s => s.setDone false) s

/-- BAD, the illegal key length: taken as a command and rejected with KLEN_INVALID, whichever the `op` bit is (rule R152). -/
def execBad (s : State) : Host.Outcome State Fault Refusal := clockEdge (fun s => s.reject .klenInvalid) s

end Sys2Proof.Machine
end

