-- ==== Sys2Proof/Machine/Dispatch.lean ====
section
/-! DEFINITION. One arm per command of the opcode table (rule R64). -/

namespace Sys2Proof.Machine

def exec (i : Instr) (s : State) : Host.Outcome State Fault Refusal :=
  match i with
  | .enc128 => Sys2Proof.Machine.execEnc128 s
  | .dec128 => Sys2Proof.Machine.execDec128 s
  | .enc192 => Sys2Proof.Machine.execEnc192 s
  | .dec192 => Sys2Proof.Machine.execDec192 s
  | .enc256 => Sys2Proof.Machine.execEnc256 s
  | .dec256 => Sys2Proof.Machine.execDec256 s
  | .nop _ _ => Sys2Proof.Machine.execNop s
  | .bad _ => Sys2Proof.Machine.execBad s

end Sys2Proof.Machine
end

