-- ==== Sys2Proof/Machine/Step.lean ====
section
/-! DEFINITION. One step is one rising edge of `clk`. There is no program counter and no fetch from a memory (rule R30): the command
of a cycle is the issue word on the input ports (rule R60). -/

namespace Sys2Proof.Machine

/-- One rising edge (rule R156): with `rst = 1`, reset and nothing else; with `rst = 0`, the edge of the command on the ports. The
cycle's port levels are then used up. -/
def step (s : State) : Host.Outcome State Fault Refusal :=
  andThen (if s.ports.rst then .next s.resetEdge else exec s.command s) State.nextCycle

/-- The port levels of a cycle with the issue word `w` on `start`, `klen` and `op`, and `rst = 0`. -/
def Ports.withIssue (p : Ports) (w : IssueWord) : Ports :=
  { p with rst := false, start := w.start == 1#1, klen := w.klen, op := w.op }

/-- `s` with the issue word `w` where the next step reads its command: on the ports of the current cycle, with the machine ready to
read it, in IDLE after a reset. The buses and all other registers stay (log entry 10). The word has four bits whatever `nbits`
says. -/
def State.withFetchWord (s : State) (_nbits w : Nat) : State :=
  { s with
    fsm := .idle
    resetSeen := true
    host := s.ports.withIssue (BitVec.ofNat 4 w) :: s.host.tail }

end Sys2Proof.Machine
end

