-- ==== Sys2Proof/Machine/Program.lean ====
section
/-! DEFINITION. The command notation of rules R67 and R68: what a host that runs a program drives on the ports, cycle by cycle. No
definition of the machine uses this file. -/

namespace Sys2Proof.Machine

/-- The port levels a line drives (rule R67): the issue word and the operands, a shorter key in the top bits of its bus with the
lower bits 0 (rule R45), `rst = 1` for RESET, and every unlisted input 0. -/
def linePorts : Line → Ports
  | .issue i blk key =>
    { rst := false
      start := (encode i).start == 1#1
      op := (encode i).op
      klen := (encode i).klen
      blkIn := blockOfBytes fun k => blk.getD k 0#8
      keyIn := pack 8 256 ((List.range 32).map fun k => key.getD k 0#8) }
  | .reset => { Ports.low with rst := true }

/-- The plain NOP line, issue word 0000. -/
def nopLine : Line := .issue (.nop 0b00#2 .encrypt) [] []

/-- The lines of `NOP n` (rule R68). -/
def nopLines (n : Nat) : List Line := List.replicate n nopLine

/-- The number of NOP lines that WAIT expands to after a command that was accepted (rule R68): `Nr + 3` after a legal one, 1 after
BAD; none after a NOP, which ends with no `done`. -/
def waitLength (i : Instr) : Option Nat :=
  match i.keyLen, i with
  | some k, _ => some ((roundsOf k).val + 3)
  | none, .bad _ => some 1
  | none, _ => none

/-- One cycle in which the host drives a line: the line is put before whatever else the host would drive. -/
def drive (l : Line) (s : State) : Host.Outcome State Fault Refusal := step { s with host := linePorts l :: s.host }

/-- WAIT (rule R68): NOP lines "repeated until the host sees done = 1 in a cycle; that cycle is the last NOP of the expansion". At
most `fuel` lines; none when no `done` was seen in them. -/
def waitDone : Nat → State → Option (Host.Outcome State Fault Refusal)
  | 0, _ => none
  | fuel + 1, s =>
    match drive nopLine s with
    | .next t => if s.done then some (.next t) else waitDone fuel t
    | .fault r => some (.fault r)
    | .refused r => some (.refused r)

/-- The most NOP lines a WAIT can need: `Nr + 3` with Nr = 14 (rule R68). A WAIT that saw no `done` in so many would never see one
(log entry 13). -/
def waitFuel : Nat := 17

/-- What a program has done so far: the state, and what its READs saw, the first first. -/
abbrev RunResult := Host.Outcome (State × List Outputs) Fault Refusal

/-- Run the lines of a list one by one. -/
def driveAll : List Line → State → Host.Outcome State Fault Refusal
  | [], s => .next s
  | l :: ls, s =>
    match drive l s with
    | .next t => driveAll ls t
    | .fault r => .fault r
    | .refused r => .refused r

/-- One pseudo-command (rule R68): READ takes no cycle and names the outputs of the current one; none when a WAIT does not end. -/
def runPseudo (p : Pseudo) (s : State) (seen : List Outputs) : Option RunResult :=
  let keep : Host.Outcome State Fault Refusal → RunResult := fun o =>
    match o with
    | .next t => .next (t, seen)
    | .fault r => .fault r
    | .refused r => .refused r
  match p with
  | .line l => some (keep (drive l s))
  | .nops n => some (keep (driveAll (nopLines n) s))
  | .wait => (waitDone waitFuel s).map keep
  | .run l =>
    match drive l s with
    | .next t => (waitDone waitFuel t).map keep
    | .fault r => some (.fault r)
    | .refused r => some (.refused r)
  | .read =>
    match readOutputs s with
    | .next o => some (.next (s, seen ++ [o]))
    | .fault r => some (.fault r)
    | .refused r => some (.refused r)

/-- Run a program from a state (rules R67 and R68). -/
def runProgram : List Pseudo → State → List Outputs → Option RunResult
  | [], s, seen => some (.next (s, seen))
  | p :: ps, s, seen =>
    match runPseudo p s seen with
    | some (.next (t, seen')) => runProgram ps t seen'
    | some (.fault r) => some (.fault r)
    | some (.refused r) => some (.refused r)
    | none => none

end Sys2Proof.Machine
end

