-- ==== Sys2Proof/Safety.lean ====
section
/-! DEFINITION. The terms the claims are stated in: runs of several edges, the conditions on the host, the invariant of the machine
and what a safe run is. -/

namespace Sys2Proof.Machine

/-- `n` edges, stopping at the first fault or refusal. -/
def steps : Nat → State → Host.Outcome State Fault Refusal
  | 0, s => .next s
  | n + 1, s =>
    match step s with
    | .next t => steps n t
    | .fault r => .fault r
    | .refused r => .refused r

/-- The machine can take a command: it has seen a reset and is in IDLE (rules R130 and R173). -/
def State.ready (s : State) : Prop := s.resetSeen = true ∧ s.fsm = .idle

/-- In the next `n` cycles the host does not drive `rst = 1`. -/
def State.noReset (s : State) (n : Nat) : Prop := ∀ k, k < n → (s.portsAt k).rst = false

/-- The legal command for a key length and an operation (rules R61, R62 and R64). -/
def commandOf : KeyLen → Op → Instr
  | .aes128, .encrypt => .enc128
  | .aes128, .decrypt => .dec128
  | .aes192, .encrypt => .enc192
  | .aes192, .decrypt => .dec192
  | .aes256, .encrypt => .enc256
  | .aes256, .decrypt => .dec256

/-- The edge rejects a command (rules R152 and R153): KLEN_INVALID in IDLE, or RCON_RANGE in KEYEXP. -/
def State.rejects (s : State) : Bool :=
  match s.fsm with
  | .idle => issueWord s.ports == 0b1110#4 || issueWord s.ports == 0b1111#4
  | .keyexp => (keyExpand s.keyR s.klenR).rconErr
  | _ => false

/-- The round index that belongs to FINAL: Nr to encrypt, 0 to decrypt (rules R134 to R136). -/
def finalIndex (op : Op) (klen : Klen) : Nat :=
  match op with
  | .encrypt => (nrOf klen).val
  | .decrypt => 0

/-- What holds of aes_core from the first reset on. Every clause is a sentence of the spec about reachable states. -/
structure State.Inv (s : State) : Prop where
  /-- A reset has been seen (rule R172 rules out what comes before). -/
  afterReset : s.resetSeen = true
  /-- "Unused fsm encodings 3'd5, 3'd6, 3'd7 are unreachable" (rule R139). -/
  fsmUsed : s.fsm ≠ .unused5 ∧ s.fsm ≠ .unused6 ∧ s.fsm ≠ .unused7
  /-- "err = 1 exactly when err_code != 00" (rule R31). -/
  errHasCode : s.err = true ↔ s.errCode ≠ 0b00#2
  /-- `err_code = 11` is "never written" (rule R151). -/
  codeNotReserved : s.errCode ≠ 0b11#2
  /-- In a cycle with `done = 1`, "fsm = IDLE, busy = 0" (rule R137). -/
  doneInIdle : s.done = true → s.busy = false
  /-- While a command runs, `klen_r` "only ever holds 00, 01 or 10" (rule R24). -/
  klenLegal : s.busy = true → s.klenR ≠ 0b11#2
  /-- While a command runs, `err` and `err_code` are what its acceptance wrote (rules R131 and R136). -/
  busyNoError : s.busy = true → s.err = false
  /-- In ROUND the index is one of the full rounds 1 to Nr-1 (rules R134 and R135). -/
  roundIndex : s.fsm = .round → 1 ≤ s.rnd.toNat ∧ s.rnd.toNat < (nrOf s.klenR).val
  /-- In FINAL the index is Nr to encrypt and 0 to decrypt (rules R134 to R136). -/
  finalRound : s.fsm = .final → s.rnd.toNat = finalIndex s.opR s.klenR
  /-- From INIT on, `SCHED` holds the schedule of the command's own key (rules R110, R132 and R181). -/
  scheduleLoaded : s.fsm = .init ∨ s.fsm = .round ∨ s.fsm = .final →
    s.sched = scheduleOf (keyExpand s.keyR s.klenR).wOut

/-- Two states that a host cannot tell apart at this moment and that drive the state machine alike: they differ at most in the
hidden data registers `st`, `keyR`, `opR`, `klenR`, `rnd` and `sched` (rule R34). -/
def State.agreesOutsideDataRegisters (s t : State) : Prop :=
  s.fsm = t.fsm ∧ s.blkOut = t.blkOut ∧ s.done = t.done ∧ s.err = t.err ∧ s.errCode = t.errCode ∧
    s.resetSeen = t.resetSeen ∧ s.host = t.host

/-- The state machine is carrying out a command: in KEYEXP, INIT, ROUND or FINAL. -/
def State.inCommand (s : State) : Prop := s.fsm = .keyexp ∨ s.fsm = .init ∨ s.fsm = .round ∨ s.fsm = .final

/-- Two states that agree outside the data registers, and on the data registers that the command in progress has written so far: the
latched block, key and selectors from acceptance on, `SCHED` from INIT on and `rnd` from ROUND on ("Every one of them is written before
it is read within a command", rule R34). -/
structure State.alikeForHost (s t : State) : Prop where
  outside : s.agreesOutsideDataRegisters t
  latched : s.inCommand → s.st = t.st ∧ s.keyR = t.keyR ∧ s.opR = t.opR ∧ s.klenR = t.klenR
  schedule : s.fsm = .init ∨ s.fsm = .round ∨ s.fsm = .final → s.sched = t.sched
  index : s.fsm = .round ∨ s.fsm = .final → s.rnd = t.rnd

/-- A safe run: `n` edges none of which stops. -/
def State.runsSafely (s : State) (n : Nat) : Prop := ∃ t, steps n s = .next t

/-- What the rule of a legal command `i` says (rules R122 to R127): its issue word is `w`; presented in IDLE, it clears the error;
whatever the host drives later, as long as it is no reset, the machine is busy for `edges` cycles in which `blk_out` keeps the earlier
result, and at the edge number `edges` after the accepting one `blk_out` takes the cipher function of the operands and `done` rises, for
one cycle unless the next edge rejects a command. -/
def CommandRule (i : Instr) (w : IssueWord) (k : KeyLen) (op : Op) (edges : Nat) : Prop :=
  encode i = w ∧ decode w = i ∧
    ∀ s : State, s.ready → (∀ n, 1 ≤ n → n ≤ edges → (s.portsAt n).rst = false) →
      ∃ t, exec i s = .next t ∧ t.err = false ∧ t.errCode = 0b00#2 ∧
        (∀ n, n < edges → ∃ u, steps n t.nextCycle = .next u ∧ u.busy = true ∧ u.done = false ∧ u.blkOut = s.blkOut) ∧
        ∃ u, steps edges t.nextCycle = .next u ∧ u.blkOut = cipher op s.ports.blkIn s.ports.keyIn k ∧
          u.busy = false ∧ u.done = true ∧ u.err = false ∧ u.errCode = 0b00#2 ∧
          ∀ v, step u = .next v → u.rejects = false → v.done = false

end Sys2Proof.Machine
end

