-- ==== Sys2Proof/Certificates/Slice0/Obligations.lean ====
section
/-! DEFINITION. The statements about aes_core, for the provers. Each docstring names the rule of spec/ it formalises, or the sentences
it is derived from. -/

open Sys2Proof Sys2Proof.Machine

/-! ### Encoding -/

/-- Decoding the issue word of a command gives the command back, and encoding what a word decodes to gives the word back: no bit is
dropped (from the opcode map, rule R64). The third clause says the same of the byte form of a command, which is the model's choice and
not the spec's: the spec defines no byte form (log entry 9). -/
def Obligations.CommandsSurviveEncodingAndDecoding : Prop :=
  (∀ i : Instr, i.wellFormed = true → decode (encode i) = i) ∧
    (∀ w : IssueWord, (decode w).wellFormed = true ∧ encode (decode w) = w) ∧
    ∀ (i : Instr) (rest : List Byte), i.wellFormed = true → decodeBytes (encodeBytes i ++ rest) = .ok (i, rest)

/-- "The table is total: every issue word has exactly one row" (rule R64), and that row is the one the decoder gives. -/
def Obligations.EveryIssueWordHasExactlyOneRow : Prop :=
  ∀ w : IssueWord, (opcodeTable.filter fun r => r.covers w).map OpcodeRow.mnemonic = [(decode w).mnemonic]

/-- The words of rule R64 written out: every row of the table, with both values of each bit its row leaves free. -/
def Obligations.DecoderReadsTheWrittenWords : Prop :=
  decode 0b1000#4 = .enc128 ∧ decode 0b1001#4 = .dec128 ∧ decode 0b1010#4 = .enc192 ∧ decode 0b1011#4 = .dec192 ∧
    decode 0b1100#4 = .enc256 ∧ decode 0b1101#4 = .dec256 ∧ decode 0b1110#4 = .bad .encrypt ∧
    decode 0b1111#4 = .bad .decrypt ∧ decode 0b0000#4 = .nop 0b00#2 .encrypt ∧ decode 0b0111#4 = .nop 0b11#2 .decrypt

/-- A step with `rst = 0` runs the command whose issue word is on the ports, and uses up the cycle's port levels (rules R60 and R64;
the list of port levels is the model's own, log entry 1). -/
def Obligations.StepRunsTheDecodedCommand : Prop :=
  ∀ (s : State) (i : Instr), i.wellFormed = true → s.ports.rst = false → issueWord s.ports = encode i →
    step s = andThen (exec i s) State.nextCycle

/-- A table word placed by `withFetchWord` is what the very next step runs, as the command the decoder reads from it, on a machine
that is ready to take it (the model's own interface, log entry 10). -/
def Obligations.PlacedWordRunsNext : Prop :=
  ∀ (s : State) (nbits w : Nat) (i : Instr), decodeTableWord nbits w = some i →
    (s.withFetchWord nbits w).ready ∧
      step (s.withFetchWord nbits w) = andThen (exec i (s.withFetchWord nbits w)) State.nextCycle

/-- The port levels of a program line (rule R67): the issue word of its command and `rst = 0`, the operand bytes in their places with
byte 0 first, the lower bytes of a shorter key 0; and `rst = 1` for RESET. -/
def Obligations.LinesDriveTheirPorts : Prop :=
  (∀ (i : Instr) (blk key : List Byte), (Line.issue i blk key).wellFormed = true →
    (linePorts (.issue i blk key)).rst = false ∧ issueWord (linePorts (.issue i blk key)) = encode i ∧
      (∀ k, k < 16 → blockByte (linePorts (.issue i blk key)).blkIn k = blk.getD k 0#8) ∧
      ∀ k, k < 32 → keyByte (linePorts (.issue i blk key)).keyIn k = key.getD k 0#8) ∧
    (linePorts .reset).rst = true

/-! ### One edge: what each command and each state of the state machine does -/

/-- Rule R128: NOP in IDLE. "done <- 0; no other register changes", and the other inputs are not read. -/
def Obligations.NopOnlyClearsDone : Prop :=
  ∀ (s : State) (klen : Klen) (op : Op), s.ready → exec (.nop klen op) s = .next { s with done := false }

/-- Rule R131: accepting a legal command, as the meaning of the command and as the edge with `start = 1` and `klen != 11` on the
ports (the list of port levels, which the edge shortens, is the model's own, log entry 1). -/
def Obligations.LegalCommandsAreAccepted : Prop :=
  (∀ (s : State) (k : KeyLen) (op : Op), s.ready →
    exec (commandOf k op) s = .next
      { s with st := s.ports.blkIn, keyR := s.ports.keyIn, opR := op, klenR := k.code, err := false, errCode := 0b00#2,
               done := false, fsm := .keyexp }) ∧
    ∀ s : State, s.ready → s.ports.rst = false → s.ports.start = true → s.ports.klen ≠ 0b11#2 →
      step s = .next
        { s with st := s.ports.blkIn, keyR := s.ports.keyIn, opR := s.ports.op, klenR := s.ports.klen, err := false,
                 errCode := 0b00#2, done := false, fsm := .keyexp, host := s.host.tail }

/-- Rule R152: KLEN_INVALID, as the meaning of BAD and as the edge with `start = 1` and `klen = 11` on the ports (the list of port
levels, which the edge shortens, is the model's own, log entry 1). -/
def Obligations.IllegalKeyLengthIsRejected : Prop :=
  (∀ (s : State) (op : Op), s.ready →
    exec (.bad op) s = .next { s with err := true, errCode := 0b01#2, done := true }) ∧
    ∀ s : State, s.ready → s.ports.rst = false → s.ports.start = true → s.ports.klen = 0b11#2 →
      step s = .next { s with err := true, errCode := 0b01#2, done := true, host := s.host.tail }

/-- Rule R141: a command presented while busy is lost. Whatever the command and the inputs other than `rst`, the edge does the
same. -/
def Obligations.CommandsWhileBusyAreLost : Prop :=
  (∀ (s : State) (i j : Instr), s.busy = true → exec i s = exec j s) ∧
    ∀ (s : State) (p q : Ports) (later : List Ports), s.busy = true → p.rst = false → q.rst = false →
      step { s with host := p :: later } = step { s with host := q :: later }

/-- Rules R132 and R153: the KEYEXP edge loads all 60 words of `w_out`, or rejects the command with RCON_RANGE. -/
def Obligations.KeyexpEdgeLoadsTheSchedule : Prop :=
  ∀ (s : State) (i : Instr), s.resetSeen = true → s.fsm = .keyexp →
    exec i s = .next
      (if (keyExpand s.keyR s.klenR).rconErr = true then
        { s with err := true, errCode := 0b10#2, done := true, fsm := .idle }
      else
        { s with
          sched := Vector.ofFn fun n : Fin 60 => (keyExpand s.keyR s.klenR).wOut.extractLsb' (1888 - 32 * n.val) 32
          done := false
          fsm := .init })

/-- Rule R133: the INIT edge, for a legal `klen_r`. -/
def Obligations.InitEdgeAddsTheFirstRoundKey : Prop :=
  ∀ (s : State) (i : Instr), s.resetSeen = true → s.fsm = .init → s.klenR ≠ 0b11#2 →
    (s.opR = .encrypt →
      exec i s = .next { s with st := addRoundKey s.sched s.st 0, rnd := 1#4, done := false, fsm := .round }) ∧
      (s.opR = .decrypt →
        exec i s = .next
          { s with st := addRoundKey s.sched s.st (nrOf s.klenR), rnd := BitVec.ofNat 4 ((nrOf s.klenR).val - 1),
                   done := false, fsm := .round })

/-- Rule R134: the ROUND edge of an encryption, and the whole of the ROUND state, Nr-1 cycles that apply rounds 1 to Nr-1 in ascending
order and end in FINAL with `rnd = Nr`. -/
def Obligations.RoundStateEncrypts : Prop :=
  (∀ (s : State) (i : Instr) (j : Fin 15), s.resetSeen = true → s.fsm = .round → s.opR = .encrypt →
    s.klenR ≠ 0b11#2 → s.rnd.toNat = j.val →
      exec i s = .next
        { s with
          st := encRound s.sched s.st j
          fsm := if s.rnd.toNat = (nrOf s.klenR).val - 1 then .final else .round
          rnd := s.rnd + 1#4
          done := false }) ∧
    ∀ s : State, s.resetSeen = true → s.fsm = .round → s.opR = .encrypt → s.klenR ≠ 0b11#2 → s.rnd = 1#4 →
      s.noReset ((nrOf s.klenR).val - 1) →
        (∀ n, n < (nrOf s.klenR).val - 1 → ∃ t, steps n s = .next t ∧ t.fsm = .round ∧ t.rnd.toNat = n + 1) ∧
          ∃ t, steps ((nrOf s.klenR).val - 1) s = .next t ∧ t.fsm = .final ∧ t.rnd.toNat = (nrOf s.klenR).val ∧
            t.st = (fullRounds (nrOf s.klenR)).foldl (encRound s.sched) s.st

/-- Rule R135: the ROUND edge of a decryption, and the whole of the ROUND state, Nr-1 cycles that apply rounds Nr-1 down to 1 and end in
FINAL with `rnd = 0`. -/
def Obligations.RoundStateDecrypts : Prop :=
  (∀ (s : State) (i : Instr) (j : Fin 15), s.resetSeen = true → s.fsm = .round → s.opR = .decrypt →
    s.rnd.toNat = j.val →
      exec i s = .next
        { s with
          st := decRound s.sched s.st j
          fsm := if s.rnd = 1#4 then .final else .round
          rnd := s.rnd - 1#4
          done := false }) ∧
    ∀ s : State, s.resetSeen = true → s.fsm = .round → s.opR = .decrypt → s.klenR ≠ 0b11#2 →
      s.rnd.toNat = (nrOf s.klenR).val - 1 → s.noReset ((nrOf s.klenR).val - 1) →
        (∀ n, n < (nrOf s.klenR).val - 1 →
          ∃ t, steps n s = .next t ∧ t.fsm = .round ∧ t.rnd.toNat = (nrOf s.klenR).val - 1 - n) ∧
          ∃ t, steps ((nrOf s.klenR).val - 1) s = .next t ∧ t.fsm = .final ∧ t.rnd = 0#4 ∧
            t.st = (fullRounds (nrOf s.klenR)).reverse.foldl (decRound s.sched) s.st

/-- Rule R136: the FINAL edge. The round key it uses is `RK(rnd)`: `rnd` is Nr to encrypt and 0 to decrypt. -/
def Obligations.FinalEdgeWritesTheResult : Prop :=
  ∀ (s : State) (i : Instr) (j : Fin 15), s.resetSeen = true → s.fsm = .final → s.klenR ≠ 0b11#2 →
    s.rnd.toNat = j.val → j.val = finalIndex s.opR s.klenR →
      (s.opR = .encrypt →
        exec i s = .next
          { s with st := addRoundKey s.sched (shiftRows (subBytes s.st)) j,
                   blkOut := addRoundKey s.sched (shiftRows (subBytes s.st)) j, done := true, fsm := .idle }) ∧
        (s.opR = .decrypt →
          exec i s = .next
            { s with st := addRoundKey s.sched (invSubBytes (invShiftRows s.st)) j,
                     blkOut := addRoundKey s.sched (invSubBytes (invShiftRows s.st)) j, done := true, fsm := .idle })

/-- Rule R139: an unused `fsm` encoding goes to IDLE with `done` 0 and nothing else, and no edge leads into one. -/
def Obligations.UnusedEncodingsRecoverAndAreNeverEntered : Prop :=
  (∀ (s : State) (i : Instr), s.resetSeen = true → s.fsm = .unused5 ∨ s.fsm = .unused6 ∨ s.fsm = .unused7 →
    exec i s = .next { s with fsm := .idle, done := false }) ∧
    ∀ s t : State, step s = .next t → t.fsm ≠ .unused5 ∧ t.fsm ≠ .unused6 ∧ t.fsm ≠ .unused7

/-! ### Reset and power-up -/

/-- An edge with `rst = 1`, whatever the state and the other inputs (70_reset_and_hazards.md, section 1). The values of the five
registers it writes are the spec's. That the data registers keep their values is the model's choice: the spec says that they are not
written and calls them unspecified after reset (log entry 3). The mark that a reset was seen and the list of port levels are the model's
own (log entries 4 and 1). -/
def Obligations.ResetEdgeWritesTheVisibleRegisters : Prop :=
  ∀ s : State, s.ports.rst = true →
    step s = .next
      { s with fsm := .idle, done := false, err := false, errCode := 0b00#2, blkOut := 0#128, resetSeen := true,
               host := s.host.tail }

/-- Rule R171: a reset in the middle of a command. No result, no error, and no `done` pulse for it in any later cycle, as long as no
other command is presented. -/
def Obligations.ResetAbortsARunningCommand : Prop :=
  ∀ (s : State) (n : Nat), s.busy = true → s.ports.rst = true →
    (∀ k, 1 ≤ k → k ≤ n → (s.portsAt k).rst = false ∧ (s.portsAt k).start = false) →
      ∃ t, steps (n + 1) s = .next t ∧ t.busy = false ∧ t.done = false ∧ t.blkOut = 0#128 ∧ t.err = false ∧
        t.errCode = 0b00#2

/-- After an edge with `rst = 1`, whatever came before it, power-up included, the machine takes commands (the boot order of
70_reset_and_hazards.md, section 1), and the invariant holds, which gathers what the spec says of reachable states and is no sentence of
the boot rule. That the machine is ready includes `resetSeen`, a field of the model's own (log entry 4). -/
def Obligations.BootNeedsOneResetEdge : Prop :=
  ∀ s : State, s.ports.rst = true → ∃ t, step s = .next t ∧ t.ready ∧ t.Inv

/-- Entry U2 of 93_implementation_defined.md and rule R172: before the first reset every command's edge is a fault and so is reading
the outputs, the power-up state is such a state, and after the first reset the outputs can be read. -/
def Obligations.NothingRunsBeforeTheFirstReset : Prop :=
  (∀ (s : State) (i : Instr), s.resetSeen = false →
    exec i s = .fault .edgeBeforeReset ∧ readOutputs s = .fault .outputBeforeReset) ∧
    (∀ host : List Ports, (State.powerUp host).resetSeen = false) ∧
    ∀ s : State, s.resetSeen = true → readOutputs s = .next
      { blkOut := s.blkOut, busy := s.busy, done := s.done, err := s.err, errCode := s.errCode }

/-- The values the reset table of rule R36 gives. (The data registers have none: their zeros are the model's choice, log entry 2, and
nothing is stated of them.) -/
def Obligations.ResetStateHasTheSpecsValues : Prop :=
  State.reset.fsm = .idle ∧ State.reset.done = false ∧ State.reset.err = false ∧ State.reset.errCode = 0b00#2 ∧
    State.reset.blkOut = 0#128 ∧ State.reset.busy = false ∧ State.reset.fsm.code = 0#3

/-! ### Whole-machine rules: what each edge may change -/

/-- Rule R129: the transition table of `fsm`, at every edge that answers a next state (in ROUND, for a legal `klen_r`, which names the
last full round). -/
def Obligations.FsmFollowsTheTransitionTable : Prop :=
  ∀ s t : State, (s.fsm = .round → s.klenR ≠ 0b11#2) → step s = .next t →
    t.fsm =
      (if s.ports.rst = true then .idle
      else
        match s.fsm with
        | .idle => if s.ports.start = true ∧ s.ports.klen ≠ 0b11#2 then .keyexp else .idle
        | .keyexp => if (keyExpand s.keyR s.klenR).rconErr = true then .idle else .init
        | .init => .round
        | .round =>
          match s.opR with
          | .encrypt => if s.rnd.toNat = (nrOf s.klenR).val - 1 then .final else .round
          | .decrypt => if s.rnd = 1#4 then .final else .round
        | _ => .idle)

/-- Rules R28 and R137: `done` rises exactly at the FINAL edge and at a rejecting edge with `rst = 0`, and in the cycle in which it
is 1 the machine is in IDLE and not busy. -/
def Obligations.DoneRisesExactlyWhenACommandEnds : Prop :=
  ∀ s t : State, step s = .next t →
    (t.done = true ↔ s.ports.rst = false ∧ (s.fsm = .final ∨ s.rejects = true)) ∧
      (t.done = true → t.fsm = .idle ∧ t.busy = false)

/-- Rule R27: `blk_out` is written only by the FINAL edge and by reset. -/
def Obligations.BlkOutIsWrittenOnlyByFinalAndReset : Prop :=
  ∀ s t : State, step s = .next t →
    t.blkOut =
      (if s.ports.rst = true then 0#128
      else if s.fsm = .final then finalValue s
      else s.blkOut)

/-- Rules R29 and R31: `err` and `err_code` are written together, at an accepting edge, at a rejection and by reset, and hold
otherwise. -/
def Obligations.ErrorFlagsAreWrittenTogether : Prop :=
  ∀ s t : State, step s = .next t →
    (t.err, t.errCode) =
      (if s.ports.rst = true then (false, 0b00#2)
      else if s.fsm = .idle ∧ s.ports.start = true then
        (if s.ports.klen = 0b11#2 then (true, 0b01#2) else (false, 0b00#2))
      else if s.fsm = .keyexp ∧ (keyExpand s.keyR s.klenR).rconErr = true then (true, 0b10#2)
      else (s.err, s.errCode))

/-- The frame of the data registers over every edge (10_state.md, section 2): the latched operands and selectors change only at the
acceptance of a legal command, `SCHED` only in KEYEXP, `rnd` only in INIT and ROUND, and `st` only at acceptance, in INIT, in ROUND and
in FINAL. That they also keep their values at an edge with `rst = 1` is the model's choice (log entry 3), and that every edge uses up the
first entry of the list of port levels is the model's own (log entry 1). -/
def Obligations.DataRegistersAreWrittenOnlyByTheirRules : Prop :=
  ∀ s t : State, step s = .next t →
    (¬ (s.ports.rst = false ∧ s.fsm = .idle ∧ s.ports.start = true ∧ s.ports.klen ≠ 0b11#2) →
      t.keyR = s.keyR ∧ t.opR = s.opR ∧ t.klenR = s.klenR ∧
        (¬ (s.ports.rst = false ∧ (s.fsm = .init ∨ s.fsm = .round ∨ s.fsm = .final)) → t.st = s.st)) ∧
      (¬ (s.ports.rst = false ∧ s.fsm = .keyexp) → t.sched = s.sched) ∧
      (¬ (s.ports.rst = false ∧ (s.fsm = .init ∨ s.fsm = .round)) → t.rnd = s.rnd) ∧ t.host = s.host.tail

/-! ### The invariant -/

/-- The reset state meets the invariant. -/
def Obligations.ResetStateMeetsTheInvariant : Prop := State.reset.Inv

/-- Every edge keeps the invariant: from every state that meets it, reachable or not. -/
def Obligations.EveryEdgeKeepsTheInvariant : Prop := ∀ s t : State, s.Inv → step s = .next t → t.Inv

/-- From a state that meets the invariant no edge stops, whatever the host drives, so every run goes on for ever: no fault of the
model can be reached after a reset, RCON_RANGE never rejects a command and ROUND never runs out of round keys. -/
def Obligations.NoEdgeAfterAResetStops : Prop := ∀ (s : State) (n : Nat), s.Inv → s.runsSafely n

/-! ### Whole commands -/

/-- Rules R122, R124 and R126: ENC128, ENC192 and ENC256, with the values their corner cases and examples give. -/
def Obligations.EncryptCommandsFollowTheirRules : Prop :=
  CommandRule .enc128 0b1000#4 .aes128 .encrypt 12 ∧ CommandRule .enc192 0b1010#4 .aes192 .encrypt 14 ∧
    CommandRule .enc256 0b1100#4 .aes256 .encrypt 16 ∧
    (∀ (b : Block) (k k' : KeyBus), k.extractLsb' 128 128 = k'.extractLsb' 128 128 →
      aesEnc b k .aes128 = aesEnc b k' .aes128) ∧
    (∀ (b : Block) (k k' : KeyBus), k.extractLsb' 64 192 = k'.extractLsb' 64 192 →
      aesEnc b k .aes192 = aesEnc b k' .aes192) ∧
    aesEnc 0#128 0#256 .aes128 = 0x66e94bd4ef8a2c3b884cfa59ca342b2e#128 ∧
    aesEnc 0#128 0#256 .aes192 = 0xaae06992acbf52a3e8f4a96ec9300bd7#128 ∧
    aesEnc 0#128 0#256 .aes256 = 0xdc95c078a2408989ad48a21492842087#128 ∧
    aesEnc 0x00112233445566778899aabbccddeeff#128
      0x000102030405060708090a0b0c0d0e0f00000000000000000000000000000000#256 .aes128 =
        0x69c4e0d86a7b0430d8cdb78070b4c55a#128 ∧
    aesEnc 0x00112233445566778899aabbccddeeff#128
      0x000102030405060708090a0b0c0d0e0f10111213141516170000000000000000#256 .aes192 =
        0xdda97ca4864cdfe06eaf70a0ec0d7191#128 ∧
    aesEnc 0x00112233445566778899aabbccddeeff#128
      0x000102030405060708090a0b0c0d0e0f101112131415161718191a1b1c1d1e1f#256 .aes256 =
        0x8ea2b7ca516745bfeafc49904b496089#128 ∧
    aesEnc 0x00112233445566778899aabbccddeeff#128
      0x000102030405060708090a0b0c0d0e0f00000000000000000000000000000000#256 .aes256 =
        0xc976274dba02fb5dc55878e448c39b8c#128

/-- DEC128, DEC192 and DEC256 (44_block_cipher.md, section 2, the rules R123, R125 and R127), with the values of their corner cases and of
their examples, which the spec marks as derived, and with the law of rule R121, an inference of the spec, for DEC128 of ENC128. -/
def Obligations.DecryptCommandsFollowTheirRules : Prop :=
  CommandRule .dec128 0b1001#4 .aes128 .decrypt 12 ∧ CommandRule .dec192 0b1011#4 .aes192 .decrypt 14 ∧
    CommandRule .dec256 0b1101#4 .aes256 .decrypt 16 ∧
    (∀ (b : Block) (k k' : KeyBus), k.extractLsb' 128 128 = k'.extractLsb' 128 128 →
      aesDec b k .aes128 = aesDec b k' .aes128) ∧
    (∀ (b : Block) (k k' : KeyBus), k.extractLsb' 64 192 = k'.extractLsb' 64 192 →
      aesDec b k .aes192 = aesDec b k' .aes192) ∧
    (∀ (b : Block) (k : KeyBus), aesDec (aesEnc b k .aes128) k .aes128 = b) ∧
    aesDec 0#128 0#256 .aes128 = 0x140f0f1011b5223d79587717ffd9ec3a#128 ∧
    aesDec 0#128 0#256 .aes192 = 0x13460e87a8fc023ef2501afe7ff51c51#128 ∧
    aesDec 0#128 0#256 .aes256 = 0x67671ce1fa91ddeb0f8fbbb366b531b4#128 ∧
    aesDec 0x69c4e0d86a7b0430d8cdb78070b4c55a#128
      0x000102030405060708090a0b0c0d0e0f00000000000000000000000000000000#256 .aes128 =
        0x00112233445566778899aabbccddeeff#128 ∧
    aesDec 0xdda97ca4864cdfe06eaf70a0ec0d7191#128
      0x000102030405060708090a0b0c0d0e0f10111213141516170000000000000000#256 .aes192 =
        0x00112233445566778899aabbccddeeff#128 ∧
    aesDec 0x8ea2b7ca516745bfeafc49904b496089#128
      0x000102030405060708090a0b0c0d0e0f101112131415161718191a1b1c1d1e1f#256 .aes256 =
        0x00112233445566778899aabbccddeeff#128

/-- The cycle schedule of rule R142: `fsm`, `rnd`, `busy` and `done` after each of the edges E0 to E(Nr+2), `SCHED` from E1 on, and a
machine that is ready again after the last one. That `blk_out` then holds the cipher function of the operands is the inference of rule
R140. -/
def Obligations.CycleScheduleOfALegalCommand : Prop :=
  ∀ (s : State) (k : KeyLen) (op : Op), s.ready → s.command = commandOf k op → s.noReset ((roundsOf k).val + 3) →
    (∀ n, n ≤ (roundsOf k).val + 2 → ∃ t, steps (n + 1) s = .next t ∧
      t.fsm =
        (if n = 0 then .keyexp
        else if n = 1 then .init
        else if n ≤ (roundsOf k).val then .round
        else if n = (roundsOf k).val + 1 then .final
        else .idle) ∧
      t.rnd =
        (if n ≤ 1 then s.rnd
        else
          match op with
          | .encrypt => BitVec.ofNat 4 (min (n - 1) (roundsOf k).val)
          | .decrypt => BitVec.ofNat 4 ((roundsOf k).val + 1 - n)) ∧
      (t.busy = true ↔ n < (roundsOf k).val + 2) ∧ (t.done = true ↔ n = (roundsOf k).val + 2) ∧
      (1 ≤ n → t.sched = scheduleOf (keyExpand s.ports.keyIn k.code).wOut)) ∧
      ∃ t, steps ((roundsOf k).val + 3) s = .next t ∧ t.ready ∧
        t.blkOut = cipher op s.ports.blkIn s.ports.keyIn k ∧
        ∀ v, step t = .next v → t.rejects = false → v.done = false

/-- Rule R175: `start` is level-sampled. Every edge in IDLE with `start = 1` takes a command, seen as `busy` or as `done` and `err` in the
next cycle. Held with a legal command, it has a second command taken at the edge ending the `done` cycle, Nr+3 edges after the first
accepting edge; held with an illegal one, at the very next edge. That `blk_out` then holds the cipher function of the operands is the
inference of rule R140. -/
def Obligations.HeldStartIssuesTheCommandAgain : Prop :=
  (∀ s : State, s.ready → s.ports.rst = false → s.ports.start = true →
    ∃ t, step s = .next t ∧ (s.ports.klen ≠ 0b11#2 → t.busy = true) ∧
      (s.ports.klen = 0b11#2 → t.busy = false ∧ t.done = true ∧ t.err = true)) ∧
    (∀ (s : State) (k : KeyLen) (op : Op), s.ready → s.command = commandOf k op → s.ports.rst = false →
      (∀ n, n ≤ (roundsOf k).val + 3 → s.portsAt n = s.ports) →
        (∃ t, steps ((roundsOf k).val + 3) s = .next t ∧ t.ready ∧ t.done = true) ∧
          ∃ t, steps ((roundsOf k).val + 4) s = .next t ∧ t.fsm = .keyexp ∧ t.done = false ∧ t.st = s.ports.blkIn ∧
            t.keyR = s.ports.keyIn ∧ t.opR = op ∧ t.klenR = k.code ∧
            t.blkOut = cipher op s.ports.blkIn s.ports.keyIn k) ∧
    ∀ (s : State) (op : Op), s.ready → s.command = .bad op → s.ports.rst = false → s.portsAt 1 = s.ports →
      ∃ t u, step s = .next t ∧ t.done = true ∧ t.errCode = 0b01#2 ∧ t.command = .bad op ∧
        step t = .next u ∧ u.done = true ∧ u.errCode = 0b01#2

/-- No value left from reset or from an earlier command reaches an output (the inference of 10_state.md, section 3, hidden state): two
idle machines that differ only in the hidden data registers and get the same inputs show the same outputs after any number of edges,
resets and rejected commands among them. -/
def Obligations.HiddenRegistersNeverReachAnOutput : Prop :=
  ∀ (s t : State) (n : Nat), s.ready → s.agreesOutsideDataRegisters t →
    ∃ s' t', steps n s = .next s' ∧ steps n t = .next t' ∧ s'.outputs = t'.outputs ∧
      s'.agreesOutsideDataRegisters t'

/-- One edge keeps two machines alike for their host (the inference of 10_state.md, section 3, hidden state, as a step lemma): if two
states agree on what a host sees and drives, and on every data register that the command in progress has already written, then where
one edge of the first answers a next state, so does one edge of the second, and the two next states agree in the same way. So no edge
reads a data register before its own command has written it. -/
def Obligations.EveryEdgeKeepsMachinesAlikeForTheHost : Prop :=
  ∀ s t s' : State, s.alikeForHost t → step s = .next s' → ∃ t', step t = .next t' ∧ s'.alikeForHost t'

/-- The expansion of WAIT (rule R68): after an accepted command, the NOP lines up to the one in which the host sees `done = 1` are
`Nr + 3` for a legal command and 1 for BAD, and `done` is 0 in every earlier one. That the model's WAIT gives up after `waitFuel = 17`
lines is its own choice (log entry 13). -/
def Obligations.WaitExpandsToTheStatedNopLines : Prop :=
  ∀ (s : State) (i : Instr) (blk key : List Byte) (n : Nat), s.ready → waitLength i = some n →
    ∃ t u, drive (.issue i blk key) s = .next t ∧ waitDone waitFuel t = some (.next u) ∧
      driveAll (nopLines n) t = .next u ∧
      ∀ m, m < n → ∃ v, driveAll (nopLines m) t = .next v ∧ (v.done = true ↔ m + 1 = n)

/-! ### GF(2^8) and the tables -/

/-- Rule R76: galois_mult_8 is the product of rule R70 reduced modulo `x^8+x^4+x^3+x+1`, with the rule's corner cases and examples. -/
def Obligations.GaloisMultIsTheReducedPolynomialProduct : Prop :=
  (∀ a b : Byte, galoisMult8 a b = polyReduce (polyMul a b)) ∧
    (∀ a : Byte, galoisMult8 a 0x00#8 = 0x00#8 ∧ galoisMult8 0x00#8 a = 0x00#8 ∧ galoisMult8 a 0x01#8 = a ∧
      galoisMult8 a 0x02#8 = xtime a) ∧
    galoisMult8 0xff#8 0xff#8 = 0x13#8 ∧ galoisMult8 0x80#8 0x80#8 = 0x9a#8 ∧ galoisMult8 0x02#8 0x80#8 = 0x1b#8 ∧
    galoisMult8 0x53#8 0xca#8 = 0x01#8 ∧ galoisMult8 0x57#8 0x83#8 = 0xc1#8 ∧ galoisMult8 0x57#8 0x13#8 = 0xfe#8

/-- The fixed multipliers are products by constants, for every byte (40_galois.md, section 4). -/
def Obligations.FixedMultipliersAreProductsByConstants : Prop :=
  ∀ b : Byte, xtime b = galoisMult8 b 0x02#8 ∧ mul3 b = galoisMult8 b 0x03#8 ∧ mul9 b = galoisMult8 b 0x09#8 ∧
    mulB b = galoisMult8 b 0x0b#8 ∧ mulD b = galoisMult8 b 0x0d#8 ∧ mulE b = galoisMult8 b 0x0e#8

/-- The field laws of 40_galois.md, section 4: with XOR as addition, galois_mult_8 is commutative, associative and distributive, 0x01 is
its identity, and every nonzero byte has exactly one inverse. -/
def Obligations.GaloisMultObeysTheFieldLaws : Prop :=
  (∀ a b : Byte, galoisMult8 a b = galoisMult8 b a) ∧
    (∀ a b c : Byte, galoisMult8 (galoisMult8 a b) c = galoisMult8 a (galoisMult8 b c)) ∧
    (∀ a b c : Byte, galoisMult8 a (b ^^^ c) = galoisMult8 a b ^^^ galoisMult8 a c) ∧
    (∀ a : Byte, galoisMult8 0x01#8 a = a) ∧
    ∀ a : Byte, a ≠ 0x00#8 → ∃! b : Byte, galoisMult8 a b = 0x01#8

/-- The two S-box tables undo one another at every byte (20_memory.md, section 1). -/
def Obligations.SboxTablesUndoOneAnother : Prop :=
  ∀ x : Byte, romInvSbox (romSbox x) = x ∧ romSbox (romInvSbox x) = x

/-- The forward table is the one its generating definition gives, and the inverse that definition uses is the inverse of
galois_mult_8 (20_memory.md, section 1; the way the inverse is computed is the model's, log entry 15). -/
def Obligations.SboxMatchesItsGeneratingDefinition : Prop :=
  (∀ x : Byte, romSbox x = sboxGenerated x) ∧ gfInv 0x00#8 = 0x00#8 ∧
    ∀ x : Byte, x ≠ 0x00#8 → galoisMult8 x (gfInv x) = 0x01#8

/-- `Rcon(j)` is the word of the table entry for 1 to 10 and the RCON_RANGE condition for every other index (rule R103). That each entry
is xtime of the one before is an inference the spec marks in rule R42, and the table values are those it supplies from general knowledge
(log entry 17). -/
def Obligations.RconFailsOutsideItsTable : Prop :=
  (∀ j, 1 ≤ j → j ≤ 10 → ∃ b : Byte, romRcon j = some b ∧ rcon j = some (b ++ 0#24)) ∧
    (∀ j, j = 0 ∨ 10 < j → rcon j = none) ∧ rcon 1 = some 0x01000000#32 ∧
    (∀ j, 1 ≤ j → j ≤ 9 → (romRcon j).map xtime = romRcon (j + 1)) ∧ rcon 9 = some 0x1b000000#32 ∧
    rcon 10 = some 0x36000000#32

/-! ### Round transformations -/

/-- Rules R80, R81 and R82: each byte of the result of a forward transformation, from the bytes of the state before it. -/
def Obligations.ForwardTransformationsActOnStateBytes : Prop :=
  ∀ (st : Block) (r c : Nat), r < 4 → c < 4 →
    stateByte (subBytes st) r c = romSbox (stateByte st r c) ∧
      stateByte (shiftRows st) r c = stateByte st r ((c + r) % 4) ∧
      stateByte (mixColumns st) r c =
        stateByte st r c ^^^
          (stateByte st 0 c ^^^ stateByte st 1 c ^^^ stateByte st 2 c ^^^ stateByte st 3 c) ^^^
          xtime (stateByte st r c ^^^ stateByte st ((r + 1) % 4) c)

/-- Rules R90, R91 and R92: each byte of the result of an inverse transformation. `(c - r) mod 4` is the non-negative remainder. -/
def Obligations.InverseTransformationsActOnStateBytes : Prop :=
  ∀ (st : Block) (r c : Nat), r < 4 → c < 4 →
    stateByte (invShiftRows st) r c = stateByte st r (((c : Int) - (r : Int)) % 4).toNat ∧
      stateByte (invSubBytes st) r c = romInvSbox (stateByte st r c) ∧
      stateByte (invMixColumns st) r c =
        mulE (stateByte st r c) ^^^ mulB (stateByte st ((r + 1) % 4) c) ^^^ mulD (stateByte st ((r + 2) % 4) c) ^^^
          mul9 (stateByte st ((r + 3) % 4) c)

/-- Rule R83: AddRoundKey byte by byte, from word `4j + c` of the schedule, and its self-inverse. -/
def Obligations.AddRoundKeyXorsTheScheduleBytes : Prop :=
  ∀ (sched : Schedule) (st : Block) (j : Fin 15),
    (∀ (r : Nat) (c : Fin 4), r < 4 →
      stateByte (addRoundKey sched st j) r c.val =
        stateByte st r c.val ^^^ (sched[4 * j.val + c.val]).extractLsb' (24 - 8 * r) 8) ∧
      addRoundKey sched (addRoundKey sched st j) j = st

/-- The matrix form of MixColumns equals its XOR form (41_round_forward.md, MixColumns). -/
def Obligations.MixColumnsIsTheMatrixProduct : Prop :=
  ∀ (st : Block) (r c : Nat), r < 4 → c < 4 →
    stateByte (mixColumns st) r c = mixByteMatrix (fun i => stateByte st i c) r

/-- The inverse laws of 42_round_inverse.md, in both orders, for every state. -/
def Obligations.InverseTransformationsUndoTheForwardOnes : Prop :=
  ∀ st : Block,
    invShiftRows (shiftRows st) = st ∧ shiftRows (invShiftRows st) = st ∧ invSubBytes (subBytes st) = st ∧
      subBytes (invSubBytes st) = st ∧ invMixColumns (mixColumns st) = st ∧ mixColumns (invMixColumns st) = st

/-- SubBytes and ShiftRows commute, and four ShiftRows are the identity (41_round_forward.md). -/
def Obligations.ShiftRowsCommutesWithSubBytes : Prop :=
  ∀ st : Block, subBytes (shiftRows st) = shiftRows (subBytes st) ∧
    shiftRows (shiftRows (shiftRows (shiftRows st))) = st

/-! ### Key expansion and the cipher functions -/

/-- The words of `w_out` (rules R105 and R107): the first Nk are the key's, each later one follows the recurrence, and the words from
4·(Nr+1) up are 0. That the round constants the recurrence asks for are always in the table is the inference of rule R108. -/
def Obligations.ScheduleWordsFollowTheRecurrence : Prop :=
  ∀ (key : KeyBus) (klen : Klen), klen ≠ 0b11#2 →
    (∀ i, i < nkOf klen → wOutWord (keyExpand key klen).wOut i = key.extractLsb' (224 - 32 * i) 32) ∧
      (∀ i, nkOf klen ≤ i → i < 4 * ((nrOf klen).val + 1) →
        ∃ temp : Word,
          wOutWord (keyExpand key klen).wOut i = wOutWord (keyExpand key klen).wOut (i - nkOf klen) ^^^ temp ∧
          (i % nkOf klen = 0 → ∃ rc, rcon (i / nkOf klen) = some rc ∧
            temp = subWord (rotWord (wOutWord (keyExpand key klen).wOut (i - 1))) ^^^ rc) ∧
          (i % nkOf klen ≠ 0 → nkOf klen > 6 → i % nkOf klen = 4 →
            temp = subWord (wOutWord (keyExpand key klen).wOut (i - 1))) ∧
          (i % nkOf klen ≠ 0 → ¬ (nkOf klen > 6 ∧ i % nkOf klen = 4) →
            temp = wOutWord (keyExpand key klen).wOut (i - 1))) ∧
      ∀ i, 4 * ((nrOf klen).val + 1) ≤ i → i < 60 → wOutWord (keyExpand key klen).wOut i = 0#32

/-- Rules R101 and R102: the outputs `nk`, `nr` and `kerr` of aes_key_expand for each klen, and all of its outputs for the illegal
one. -/
def Obligations.KeyExpandPortsForEachKeyLength : Prop :=
  ∀ key : KeyBus,
    ((keyExpand key 0b00#2).nk = 4#4 ∧ (keyExpand key 0b00#2).nr = 10#4 ∧ (keyExpand key 0b00#2).kerr = false) ∧
      ((keyExpand key 0b01#2).nk = 6#4 ∧ (keyExpand key 0b01#2).nr = 12#4 ∧ (keyExpand key 0b01#2).kerr = false) ∧
      ((keyExpand key 0b10#2).nk = 8#4 ∧ (keyExpand key 0b10#2).nr = 14#4 ∧ (keyExpand key 0b10#2).kerr = false) ∧
      scheduleLength 0b00#2 = 44 ∧ scheduleLength 0b01#2 = 52 ∧ scheduleLength 0b10#2 = 60 ∧
      keyExpand key 0b11#2 = { wOut := 0#1920, nr := 0#4, nk := 0#4, kerr := true, rconErr := false }

/-- No legal key length asks for a round constant outside the table, so RCON_RANGE rejects no command (the inference of
43_key_expand.md about `rcon_err`). -/
def Obligations.RconRangeNeverArises : Prop :=
  ∀ (key : KeyBus) (klen : Klen), (keyExpand key klen).rconErr = false

/-- Rule R45: the key bytes at and above 4·Nk are ignored, by the key expansion and so by both cipher functions. -/
def Obligations.KeyBytesAboveTheKeyAreIgnored : Prop :=
  ∀ (k : KeyLen) (key key' : KeyBus), (∀ i, i < k.bytes → keyByte key i = keyByte key' i) →
    keyExpand key k.code = keyExpand key' k.code ∧
      ∀ (b : Block), aesEnc b key k = aesEnc b key' k ∧ aesDec b key k = aesDec b key' k

/-- The law of rule R121 and its mirror: decryption undoes encryption and encryption undoes decryption, for every block, key and legal
key length. -/
def Obligations.DecryptionAndEncryptionUndoOneAnother : Prop :=
  ∀ (b : Block) (key : KeyBus) (k : KeyLen),
    aesDec (aesEnc b key k) key k = b ∧ aesEnc (aesDec b key k) key k = b
end

