-- ==== Sys2Proof/Laws/Bytes.lean ====
section
/-! SUPPORT. Packing and unpacking: what each byte and word accessor reads from a packed value, and that the bytes determine the
block. -/

namespace Sys2Proof.Machine

theorem pack_append_singleton (w n : Nat) (xs : List (BitVec w)) (x : BitVec w) :
    pack w n (xs ++ [x]) = (pack w n xs <<< w) ||| x.setWidth n := by
  simp [pack, List.foldl_append]

/-- Element `i` of a packed list stands `w` bits wide above the elements after it. -/
theorem getLsbD_pack (w n : Nat) (xs : List (BitVec w)) (hn : w * xs.length ≤ n) (i k : Nat) (hi : i < xs.length)
    (hk : k < w) : (pack w n xs).getLsbD (w * (xs.length - 1 - i) + k) = (xs[i]).getLsbD k := by
  induction xs using List.reverseRecOn generalizing i with
  | nil => simp at hi
  | append_singleton xs x ih =>
    have hlen : (xs ++ [x]).length = xs.length + 1 := by simp
    rw [hlen] at hn hi
    have hmul : w * (xs.length + 1) = w * xs.length + w := by ring
    rw [hmul] at hn
    rw [pack_append_singleton]
    by_cases hlast : i = xs.length
    · subst hlast
      have hz : w * ((xs ++ [x]).length - 1 - xs.length) + k = k := by simp
      rw [hz, BitVec.getLsbD_or, BitVec.getLsbD_shiftLeft, BitVec.getLsbD_setWidth]
      have hkn : k < n := by omega
      simp [hk, hkn]
    · have hi' : i < xs.length := by omega
      obtain ⟨d, hd⟩ : ∃ d, xs.length = i + 1 + d := ⟨xs.length - (i + 1), by omega⟩
      have hbound : w * d + w ≤ w * xs.length := by
        rw [hd]
        have : w * (i + 1 + d) = w * d + w + w * i := by ring
        omega
      have hpos : w * ((xs ++ [x]).length - 1 - i) + k = w + (w * d + k) := by
        rw [hlen, hd]
        have h1 : i + 1 + d + 1 - 1 - i = d + 1 := by omega
        rw [h1]
        ring
      have ih' := ih (by omega) i hi'
      have hidx : xs.length - 1 - i = d := by omega
      rw [hidx] at ih'
      rw [hpos, BitVec.getLsbD_or, BitVec.getLsbD_shiftLeft, BitVec.getLsbD_setWidth]
      have hx : x.getLsbD (w + (w * d + k)) = false := BitVec.getLsbD_of_ge _ _ (by omega)
      have hlt : w + (w * d + k) < n := by omega
      have hsub : w + (w * d + k) - w = w * d + k := by omega
      simp only [hlt, hx, hsub, ih', List.getElem_append_left hi']
      simp

/-- Reading element `i` back from a packed list. -/
theorem extractLsb'_pack (w n : Nat) (xs : List (BitVec w)) (hn : w * xs.length ≤ n) (i : Nat) (hi : i < xs.length) :
    (pack w n xs).extractLsb' (w * (xs.length - 1 - i)) w = xs[i] := by
  apply BitVec.eq_of_getLsbD_eq
  intro k hk
  rw [BitVec.getLsbD_extractLsb']
  simp only [hk, decide_true, Bool.true_and]
  exact getLsbD_pack w n xs hn i k hi hk

/-- Byte `k` of the block made of the bytes `f` (rule R44). -/
@[simp] theorem blockByte_blockOfBytes (f : Nat → Byte) (k : Nat) (hk : k < 16) : blockByte (blockOfBytes f) k = f k := by
  have h := extractLsb'_pack 8 128 ((List.range 16).map f) (by simp) k (by simpa using hk)
  have hpos : 8 * (((List.range 16).map f).length - 1 - k) = 120 - 8 * k := by
    simp only [List.length_map, List.length_range]
    omega
  rw [hpos] at h
  simpa [blockByte, blockOfBytes] using h

/-- Byte (r, c) of the State made of the bytes `f` (rule R46). -/
@[simp] theorem stateByte_stateOfBytes (f : Nat → Nat → Byte) (r c : Nat) (hr : r < 4) (hc : c < 4) :
    stateByte (stateOfBytes f) r c = f r c := by
  unfold stateByte stateOfBytes
  rw [blockByte_blockOfBytes _ _ (by omega)]
  have h1 : (r + 4 * c) % 4 = r := by omega
  have h2 : (r + 4 * c) / 4 = c := by omega
  rw [h1, h2]

/-- Bit `i` of a block is bit `i mod 8` of byte `15 - i/8` (rule R44). -/
theorem getLsbD_eq_blockByte (b : Block) (i : Nat) (hi : i < 128) :
    b.getLsbD i = (blockByte b (15 - i / 8)).getLsbD (i % 8) := by
  unfold blockByte
  rw [BitVec.getLsbD_extractLsb']
  have h1 : i % 8 < 8 := Nat.mod_lt _ (by decide)
  have h2 : 120 - 8 * (15 - i / 8) + i % 8 = i := by omega
  simp [h1, h2]

/-- A block is determined by its 16 bytes. -/
theorem block_ext (a b : Block) (h : ∀ k, k < 16 → blockByte a k = blockByte b k) : a = b := by
  apply BitVec.eq_of_getLsbD_eq
  intro i hi
  rw [getLsbD_eq_blockByte a i hi, getLsbD_eq_blockByte b i hi, h _ (by omega)]

/-- A State is determined by its bytes S(st, r, c). -/
theorem state_ext (a b : Block) (h : ∀ r c, r < 4 → c < 4 → stateByte a r c = stateByte b r c) : a = b := by
  apply block_ext
  intro k hk
  have hk' := h (k % 4) (k / 4) (Nat.mod_lt _ (by decide)) (by omega)
  unfold stateByte at hk'
  have : k % 4 + 4 * (k / 4) = k := by omega
  rwa [this] at hk'

@[simp] theorem blockByte_xor (a b : Block) (k : Nat) : blockByte (a ^^^ b) k = blockByte a k ^^^ blockByte b k := by
  unfold blockByte
  apply BitVec.eq_of_getLsbD_eq
  intro i hi
  simp [hi]

@[simp] theorem stateByte_xor (a b : Block) (r c : Nat) :
    stateByte (a ^^^ b) r c = stateByte a r c ^^^ stateByte b r c := blockByte_xor a b _

/-- Word `i` of the packed schedule (rule R107), for a schedule of at most 60 words. -/
theorem wOutWord_packSchedule (ws : List Word) (hws : ws.length ≤ 60) (i : Nat) (hi : i < 60) :
    wOutWord (packSchedule ws) i = ws.getD i 0#32 := by
  have hlen : (ws ++ List.replicate (60 - ws.length) 0#32).length = 60 := by
    simp only [List.length_append, List.length_replicate]
    omega
  have h := extractLsb'_pack 32 1920 (ws ++ List.replicate (60 - ws.length) 0#32) (by rw [hlen]) i (by rw [hlen]; exact hi)
  have hpos : 32 * ((ws ++ List.replicate (60 - ws.length) 0#32).length - 1 - i) = 1888 - 32 * i := by
    rw [hlen]
    omega
  rw [hpos] at h
  unfold wOutWord packSchedule
  rw [h]
  by_cases hw : i < ws.length
  · rw [List.getElem_append_left hw]
    simp [List.getD_eq_getElem?_getD, hw]
  · rw [List.getElem_append_right (by omega)]
    simp [List.getD_eq_getElem?_getD, hw]

/-- Word `i` of `SCHED` as loaded from a `w_out` bus (rule R132). -/
@[simp] theorem scheduleOf_getElem (wOut : BitVec 1920) (i : Nat) (hi : i < 60) :
    (scheduleOf wOut)[i] = wOutWord wOut i := by
  simp [scheduleOf]

end Sys2Proof.Machine
end

