-- ==== Sys2Proof/Laws/State.lean ====
section
/-! SUPPORT. One lemma per field per update of the state, so that no proof unfolds a record update, and what the ports and `busy` of
an updated state are. -/

namespace Sys2Proof.Machine

variable (s : State)

/-! ### State.setDone -/

@[simp] theorem State.setDone_fsm (b : Bool) : (s.setDone b).fsm = s.fsm := rfl
@[simp] theorem State.setDone_st (b : Bool) : (s.setDone b).st = s.st := rfl
@[simp] theorem State.setDone_keyR (b : Bool) : (s.setDone b).keyR = s.keyR := rfl
@[simp] theorem State.setDone_opR (b : Bool) : (s.setDone b).opR = s.opR := rfl
@[simp] theorem State.setDone_klenR (b : Bool) : (s.setDone b).klenR = s.klenR := rfl
@[simp] theorem State.setDone_rnd (b : Bool) : (s.setDone b).rnd = s.rnd := rfl
@[simp] theorem State.setDone_sched (b : Bool) : (s.setDone b).sched = s.sched := rfl
@[simp] theorem State.setDone_blkOut (b : Bool) : (s.setDone b).blkOut = s.blkOut := rfl
@[simp] theorem State.setDone_done (b : Bool) : (s.setDone b).done = b := rfl
@[simp] theorem State.setDone_err (b : Bool) : (s.setDone b).err = s.err := rfl
@[simp] theorem State.setDone_errCode (b : Bool) : (s.setDone b).errCode = s.errCode := rfl
@[simp] theorem State.setDone_resetSeen (b : Bool) : (s.setDone b).resetSeen = s.resetSeen := rfl
@[simp] theorem State.setDone_host (b : Bool) : (s.setDone b).host = s.host := rfl

/-! ### State.clearError -/

@[simp] theorem State.clearError_fsm : (s.clearError).fsm = s.fsm := rfl
@[simp] theorem State.clearError_st : (s.clearError).st = s.st := rfl
@[simp] theorem State.clearError_keyR : (s.clearError).keyR = s.keyR := rfl
@[simp] theorem State.clearError_opR : (s.clearError).opR = s.opR := rfl
@[simp] theorem State.clearError_klenR : (s.clearError).klenR = s.klenR := rfl
@[simp] theorem State.clearError_rnd : (s.clearError).rnd = s.rnd := rfl
@[simp] theorem State.clearError_sched : (s.clearError).sched = s.sched := rfl
@[simp] theorem State.clearError_blkOut : (s.clearError).blkOut = s.blkOut := rfl
@[simp] theorem State.clearError_done : (s.clearError).done = s.done := rfl
@[simp] theorem State.clearError_err : (s.clearError).err = false := rfl
@[simp] theorem State.clearError_errCode : (s.clearError).errCode = ErrCode.none.bits := rfl
@[simp] theorem State.clearError_resetSeen : (s.clearError).resetSeen = s.resetSeen := rfl
@[simp] theorem State.clearError_host : (s.clearError).host = s.host := rfl

/-! ### State.setError -/

@[simp] theorem State.setError_fsm (c : ErrCode) : (s.setError c).fsm = s.fsm := rfl
@[simp] theorem State.setError_st (c : ErrCode) : (s.setError c).st = s.st := rfl
@[simp] theorem State.setError_keyR (c : ErrCode) : (s.setError c).keyR = s.keyR := rfl
@[simp] theorem State.setError_opR (c : ErrCode) : (s.setError c).opR = s.opR := rfl
@[simp] theorem State.setError_klenR (c : ErrCode) : (s.setError c).klenR = s.klenR := rfl
@[simp] theorem State.setError_rnd (c : ErrCode) : (s.setError c).rnd = s.rnd := rfl
@[simp] theorem State.setError_sched (c : ErrCode) : (s.setError c).sched = s.sched := rfl
@[simp] theorem State.setError_blkOut (c : ErrCode) : (s.setError c).blkOut = s.blkOut := rfl
@[simp] theorem State.setError_done (c : ErrCode) : (s.setError c).done = s.done := rfl
@[simp] theorem State.setError_err (c : ErrCode) : (s.setError c).err = true := rfl
@[simp] theorem State.setError_errCode (c : ErrCode) : (s.setError c).errCode = c.bits := rfl
@[simp] theorem State.setError_resetSeen (c : ErrCode) : (s.setError c).resetSeen = s.resetSeen := rfl
@[simp] theorem State.setError_host (c : ErrCode) : (s.setError c).host = s.host := rfl

/-! ### State.accept -/

@[simp] theorem State.accept_fsm (k : KeyLen) (op : Op) : (s.accept k op).fsm = .keyexp := rfl
@[simp] theorem State.accept_st (k : KeyLen) (op : Op) : (s.accept k op).st = s.ports.blkIn := rfl
@[simp] theorem State.accept_keyR (k : KeyLen) (op : Op) : (s.accept k op).keyR = s.ports.keyIn := rfl
@[simp] theorem State.accept_opR (k : KeyLen) (op : Op) : (s.accept k op).opR = op := rfl
@[simp] theorem State.accept_klenR (k : KeyLen) (op : Op) : (s.accept k op).klenR = k.code := rfl
@[simp] theorem State.accept_rnd (k : KeyLen) (op : Op) : (s.accept k op).rnd = s.rnd := rfl
@[simp] theorem State.accept_sched (k : KeyLen) (op : Op) : (s.accept k op).sched = s.sched := rfl
@[simp] theorem State.accept_blkOut (k : KeyLen) (op : Op) : (s.accept k op).blkOut = s.blkOut := rfl
@[simp] theorem State.accept_done (k : KeyLen) (op : Op) : (s.accept k op).done = false := rfl
@[simp] theorem State.accept_err (k : KeyLen) (op : Op) : (s.accept k op).err = false := rfl
@[simp] theorem State.accept_errCode (k : KeyLen) (op : Op) : (s.accept k op).errCode = ErrCode.none.bits := rfl
@[simp] theorem State.accept_resetSeen (k : KeyLen) (op : Op) : (s.accept k op).resetSeen = s.resetSeen := rfl
@[simp] theorem State.accept_host (k : KeyLen) (op : Op) : (s.accept k op).host = s.host := rfl

/-! ### State.reject -/

@[simp] theorem State.reject_fsm (c : ErrCode) : (s.reject c).fsm = .idle := rfl
@[simp] theorem State.reject_st (c : ErrCode) : (s.reject c).st = s.st := rfl
@[simp] theorem State.reject_keyR (c : ErrCode) : (s.reject c).keyR = s.keyR := rfl
@[simp] theorem State.reject_opR (c : ErrCode) : (s.reject c).opR = s.opR := rfl
@[simp] theorem State.reject_klenR (c : ErrCode) : (s.reject c).klenR = s.klenR := rfl
@[simp] theorem State.reject_rnd (c : ErrCode) : (s.reject c).rnd = s.rnd := rfl
@[simp] theorem State.reject_sched (c : ErrCode) : (s.reject c).sched = s.sched := rfl
@[simp] theorem State.reject_blkOut (c : ErrCode) : (s.reject c).blkOut = s.blkOut := rfl
@[simp] theorem State.reject_done (c : ErrCode) : (s.reject c).done = true := rfl
@[simp] theorem State.reject_err (c : ErrCode) : (s.reject c).err = true := rfl
@[simp] theorem State.reject_errCode (c : ErrCode) : (s.reject c).errCode = c.bits := rfl
@[simp] theorem State.reject_resetSeen (c : ErrCode) : (s.reject c).resetSeen = s.resetSeen := rfl
@[simp] theorem State.reject_host (c : ErrCode) : (s.reject c).host = s.host := rfl

/-! ### State.resetEdge -/

@[simp] theorem State.resetEdge_fsm : (s.resetEdge).fsm = .idle := rfl
@[simp] theorem State.resetEdge_st : (s.resetEdge).st = s.st := rfl
@[simp] theorem State.resetEdge_keyR : (s.resetEdge).keyR = s.keyR := rfl
@[simp] theorem State.resetEdge_opR : (s.resetEdge).opR = s.opR := rfl
@[simp] theorem State.resetEdge_klenR : (s.resetEdge).klenR = s.klenR := rfl
@[simp] theorem State.resetEdge_rnd : (s.resetEdge).rnd = s.rnd := rfl
@[simp] theorem State.resetEdge_sched : (s.resetEdge).sched = s.sched := rfl
@[simp] theorem State.resetEdge_blkOut : (s.resetEdge).blkOut = 0#128 := rfl
@[simp] theorem State.resetEdge_done : (s.resetEdge).done = false := rfl
@[simp] theorem State.resetEdge_err : (s.resetEdge).err = false := rfl
@[simp] theorem State.resetEdge_errCode : (s.resetEdge).errCode = ErrCode.none.bits := rfl
@[simp] theorem State.resetEdge_resetSeen : (s.resetEdge).resetSeen = true := rfl
@[simp] theorem State.resetEdge_host : (s.resetEdge).host = s.host := rfl

/-! ### State.nextCycle -/

@[simp] theorem State.nextCycle_fsm : (s.nextCycle).fsm = s.fsm := rfl
@[simp] theorem State.nextCycle_st : (s.nextCycle).st = s.st := rfl
@[simp] theorem State.nextCycle_keyR : (s.nextCycle).keyR = s.keyR := rfl
@[simp] theorem State.nextCycle_opR : (s.nextCycle).opR = s.opR := rfl
@[simp] theorem State.nextCycle_klenR : (s.nextCycle).klenR = s.klenR := rfl
@[simp] theorem State.nextCycle_rnd : (s.nextCycle).rnd = s.rnd := rfl
@[simp] theorem State.nextCycle_sched : (s.nextCycle).sched = s.sched := rfl
@[simp] theorem State.nextCycle_blkOut : (s.nextCycle).blkOut = s.blkOut := rfl
@[simp] theorem State.nextCycle_done : (s.nextCycle).done = s.done := rfl
@[simp] theorem State.nextCycle_err : (s.nextCycle).err = s.err := rfl
@[simp] theorem State.nextCycle_errCode : (s.nextCycle).errCode = s.errCode := rfl
@[simp] theorem State.nextCycle_resetSeen : (s.nextCycle).resetSeen = s.resetSeen := rfl
@[simp] theorem State.nextCycle_host : (s.nextCycle).host = s.host.tail := rfl

/-! ### State.withFetchWord -/

@[simp] theorem State.withFetchWord_fsm (nbits w : Nat) : (s.withFetchWord nbits w).fsm = .idle := rfl
@[simp] theorem State.withFetchWord_st (nbits w : Nat) : (s.withFetchWord nbits w).st = s.st := rfl
@[simp] theorem State.withFetchWord_keyR (nbits w : Nat) : (s.withFetchWord nbits w).keyR = s.keyR := rfl
@[simp] theorem State.withFetchWord_opR (nbits w : Nat) : (s.withFetchWord nbits w).opR = s.opR := rfl
@[simp] theorem State.withFetchWord_klenR (nbits w : Nat) : (s.withFetchWord nbits w).klenR = s.klenR := rfl
@[simp] theorem State.withFetchWord_rnd (nbits w : Nat) : (s.withFetchWord nbits w).rnd = s.rnd := rfl
@[simp] theorem State.withFetchWord_sched (nbits w : Nat) : (s.withFetchWord nbits w).sched = s.sched := rfl
@[simp] theorem State.withFetchWord_blkOut (nbits w : Nat) : (s.withFetchWord nbits w).blkOut = s.blkOut := rfl
@[simp] theorem State.withFetchWord_done (nbits w : Nat) : (s.withFetchWord nbits w).done = s.done := rfl
@[simp] theorem State.withFetchWord_err (nbits w : Nat) : (s.withFetchWord nbits w).err = s.err := rfl
@[simp] theorem State.withFetchWord_errCode (nbits w : Nat) : (s.withFetchWord nbits w).errCode = s.errCode := rfl
@[simp] theorem State.withFetchWord_resetSeen (nbits w : Nat) : (s.withFetchWord nbits w).resetSeen = true := rfl
@[simp] theorem State.withFetchWord_host (nbits w : Nat) : (s.withFetchWord nbits w).host = s.ports.withIssue (BitVec.ofNat 4 w) :: s.host.tail := rfl

/-! ### Ports and `busy` -/

@[simp] theorem State.setDone_ports (b : Bool) : (s.setDone b).ports = s.ports := rfl
@[simp] theorem State.clearError_ports : (s.clearError).ports = s.ports := rfl
@[simp] theorem State.setError_ports (c : ErrCode) : (s.setError c).ports = s.ports := rfl
@[simp] theorem State.accept_ports (k : KeyLen) (op : Op) : (s.accept k op).ports = s.ports := rfl
@[simp] theorem State.reject_ports (c : ErrCode) : (s.reject c).ports = s.ports := rfl
@[simp] theorem State.resetEdge_ports : (s.resetEdge).ports = s.ports := rfl

theorem State.ports_eq_portsAt_zero : s.ports = s.portsAt 0 := by
  unfold State.ports State.portsAt
  cases s.host <;> rfl

@[simp] theorem State.nextCycle_portsAt (n : Nat) : s.nextCycle.portsAt n = s.portsAt (n + 1) := by
  unfold State.nextCycle State.portsAt
  cases s.host <;> rfl

@[simp] theorem State.nextCycle_ports : s.nextCycle.ports = s.portsAt 1 := by
  rw [State.ports_eq_portsAt_zero, State.nextCycle_portsAt]

@[simp] theorem State.withFetchWord_ports (nbits w : Nat) :
    (s.withFetchWord nbits w).ports = s.ports.withIssue (BitVec.ofNat 4 w) := rfl

theorem State.busy_iff : s.busy = true ↔ s.fsm ≠ .idle := by
  unfold State.busy
  cases s.fsm <;> decide

theorem State.not_busy_iff : s.busy = false ↔ s.fsm = .idle := by
  unfold State.busy
  cases s.fsm <;> decide

end Sys2Proof.Machine
end

