-- ==== Sys2Proof/Laws/Edges.lean ====
section
/-! SUPPORT. What each edge can do, said once: the cases of `clockEdge`, of `exec` and of `step`, and what the edges of the round
state machine leave alone. -/

namespace Sys2Proof.Machine

/-! ### clockEdge, state by state -/

@[simp] theorem clockEdge_before_reset (f : State → State) (s : State) (h : s.resetSeen = false) :
    clockEdge f s = .fault .edgeBeforeReset := by simp [clockEdge, h]

@[simp] theorem clockEdge_idle (f : State → State) (s : State) (h : s.resetSeen = true) (hf : s.fsm = .idle) :
    clockEdge f s = .next (f s) := by simp [clockEdge, h, hf]

@[simp] theorem clockEdge_keyexp (f : State → State) (s : State) (h : s.resetSeen = true) (hf : s.fsm = .keyexp) :
    clockEdge f s = .next (keyexpEdge s) := by simp [clockEdge, h, hf]

@[simp] theorem clockEdge_init (f : State → State) (s : State) (h : s.resetSeen = true) (hf : s.fsm = .init) :
    clockEdge f s = .next (initEdge s) := by simp [clockEdge, h, hf]

@[simp] theorem clockEdge_round (f : State → State) (s : State) (h : s.resetSeen = true) (hf : s.fsm = .round) :
    clockEdge f s = roundEdge s := by simp [clockEdge, h, hf]

@[simp] theorem clockEdge_final (f : State → State) (s : State) (h : s.resetSeen = true) (hf : s.fsm = .final) :
    clockEdge f s = .next (finalEdge s) := by simp [clockEdge, h, hf]

@[simp] theorem clockEdge_unused (f : State → State) (s : State) (h : s.resetSeen = true)
    (hf : s.fsm = .unused5 ∨ s.fsm = .unused6 ∨ s.fsm = .unused7) : clockEdge f s = .next (unusedEdge s) := by
  rcases hf with hf | hf | hf <;> simp [clockEdge, h, hf]

/-- Everything an edge with `rst = 0` that answers a next state can do. -/
theorem clockEdge_cases (f : State → State) (s t : State) (h : clockEdge f s = .next t) :
    s.resetSeen = true ∧
      ((s.fsm = .idle ∧ t = f s) ∨ (s.fsm = .keyexp ∧ t = keyexpEdge s) ∨ (s.fsm = .init ∧ t = initEdge s) ∨
        (s.fsm = .round ∧ ∃ hr : s.rnd.toNat < 15, t = roundEdgeWith s ⟨s.rnd.toNat, hr⟩) ∨
        (s.fsm = .final ∧ t = finalEdge s) ∨
        ((s.fsm = .unused5 ∨ s.fsm = .unused6 ∨ s.fsm = .unused7) ∧ t = unusedEdge s)) := by
  unfold clockEdge at h
  split at h
  · rename_i hr
    refine ⟨hr, ?_⟩
    split at h <;> rename_i hf
    · exact .inl ⟨hf, by cases h; rfl⟩
    · exact .inr (.inl ⟨hf, by cases h; rfl⟩)
    · exact .inr (.inr (.inl ⟨hf, by cases h; rfl⟩))
    · unfold roundEdge at h
      split at h
      · rename_i hlt
        exact .inr (.inr (.inr (.inl ⟨hf, hlt, by cases h; rfl⟩)))
      · cases h
    · exact .inr (.inr (.inr (.inr (.inl ⟨hf, by cases h; rfl⟩))))
    · exact .inr (.inr (.inr (.inr (.inr ⟨.inl hf, by cases h; rfl⟩))))
    · exact .inr (.inr (.inr (.inr (.inr ⟨.inr (.inl hf), by cases h; rfl⟩))))
    · exact .inr (.inr (.inr (.inr (.inr ⟨.inr (.inr hf), by cases h; rfl⟩))))
  · cases h

/-- An edge that does not stop: the reset has been seen and ROUND has a round key. -/
theorem clockEdge_total (f : State → State) (s : State) (h : s.resetSeen = true)
    (hr : s.fsm = .round → s.rnd.toNat < 15) : ∃ t, clockEdge f s = .next t := by
  unfold clockEdge
  rw [if_pos h]
  split
  all_goals first
    | exact ⟨_, rfl⟩
    | (rename_i hf; exact ⟨_, by unfold roundEdge; rw [dif_pos (hr hf)]⟩)

/-! ### exec -/

/-- What a command does in IDLE. -/
def idleEffect (i : Instr) (s : State) : State :=
  match i with
  | .enc128 => s.accept .aes128 .encrypt
  | .dec128 => s.accept .aes128 .decrypt
  | .enc192 => s.accept .aes192 .encrypt
  | .dec192 => s.accept .aes192 .decrypt
  | .enc256 => s.accept .aes256 .encrypt
  | .dec256 => s.accept .aes256 .decrypt
  | .nop _ _ => s.setDone false
  | .bad _ => s.reject .klenInvalid

/-- Every command is one `clockEdge` with its own effect in IDLE. -/
theorem exec_eq_clockEdge (i : Instr) (s : State) : exec i s = clockEdge (idleEffect i) s := by
  cases i <;> rfl

theorem idleEffect_commandOf (k : KeyLen) (op : Op) (s : State) : idleEffect (commandOf k op) s = s.accept k op := by
  cases k <;> cases op <;> rfl

/-! ### step -/

theorem step_of_rst (s : State) (h : s.ports.rst = true) : step s = .next s.resetEdge.nextCycle := by
  simp [step, h, andThen]

theorem step_of_not_rst (s : State) (h : s.ports.rst = false) :
    step s = andThen (clockEdge (idleEffect s.command) s) State.nextCycle := by
  simp [step, h, exec_eq_clockEdge]

/-- Everything a step that answers a next state can do. -/
theorem step_cases (s t : State) (h : step s = .next t) :
    (s.ports.rst = true ∧ t = s.resetEdge.nextCycle) ∨
      (s.ports.rst = false ∧ ∃ u, clockEdge (idleEffect s.command) s = .next u ∧ t = u.nextCycle) := by
  cases hr : s.ports.rst with
  | true =>
    rw [step_of_rst s hr] at h
    exact .inl ⟨rfl, by cases h; rfl⟩
  | false =>
    rw [step_of_not_rst s hr] at h
    cases hc : clockEdge (idleEffect s.command) s with
    | next u =>
      rw [hc] at h
      exact .inr ⟨rfl, u, rfl, by cases h; rfl⟩
    | fault r =>
      rw [hc] at h
      cases h
    | refused r =>
      rw [hc] at h
      cases h

theorem steps_succ (n : Nat) (s t : State) (h : step s = .next t) : steps (n + 1) s = steps n t := by
  simp [steps, h]

/-- A run of `m + n` edges is a run of `m` edges and then one of `n`. -/
theorem steps_add (m n : Nat) (s t : State) (h : steps m s = .next t) : steps (m + n) s = steps n t := by
  induction m generalizing s with
  | zero =>
    cases h
    simp
  | succ m ih =>
    cases hs : step s with
    | next u =>
      rw [steps_succ m s u hs] at h
      have hm : m + 1 + n = (m + n) + 1 := by omega
      rw [hm, steps_succ (m + n) s u hs]
      exact ih u h
    | fault r =>
      simp [steps, hs] at h
    | refused r =>
      simp [steps, hs] at h

/-! ### What the edges of the round state machine leave alone -/

theorem keyexpEdge_keeps (s : State) :
    (keyexpEdge s).st = s.st ∧ (keyexpEdge s).keyR = s.keyR ∧ (keyexpEdge s).opR = s.opR ∧
      (keyexpEdge s).klenR = s.klenR ∧ (keyexpEdge s).rnd = s.rnd ∧ (keyexpEdge s).blkOut = s.blkOut ∧
      (keyexpEdge s).resetSeen = s.resetSeen ∧ (keyexpEdge s).host = s.host := by
  unfold keyexpEdge
  simp only
  split <;> simp

theorem initEdge_keeps (s : State) :
    (initEdge s).keyR = s.keyR ∧ (initEdge s).opR = s.opR ∧ (initEdge s).klenR = s.klenR ∧
      (initEdge s).sched = s.sched ∧ (initEdge s).blkOut = s.blkOut ∧ (initEdge s).err = s.err ∧
      (initEdge s).errCode = s.errCode ∧ (initEdge s).resetSeen = s.resetSeen ∧ (initEdge s).host = s.host := by
  unfold initEdge
  cases h : s.opR <;> simp [h]

theorem roundEdgeWith_keeps (s : State) (j : Fin 15) :
    (roundEdgeWith s j).keyR = s.keyR ∧ (roundEdgeWith s j).opR = s.opR ∧ (roundEdgeWith s j).klenR = s.klenR ∧
      (roundEdgeWith s j).sched = s.sched ∧ (roundEdgeWith s j).blkOut = s.blkOut ∧ (roundEdgeWith s j).err = s.err ∧
      (roundEdgeWith s j).errCode = s.errCode ∧ (roundEdgeWith s j).resetSeen = s.resetSeen ∧
      (roundEdgeWith s j).host = s.host := by
  unfold roundEdgeWith
  cases h : s.opR <;> simp [h]

theorem finalEdge_keeps (s : State) :
    (finalEdge s).keyR = s.keyR ∧ (finalEdge s).opR = s.opR ∧ (finalEdge s).klenR = s.klenR ∧
      (finalEdge s).rnd = s.rnd ∧ (finalEdge s).sched = s.sched ∧ (finalEdge s).err = s.err ∧
      (finalEdge s).errCode = s.errCode ∧ (finalEdge s).resetSeen = s.resetSeen ∧ (finalEdge s).host = s.host := by
  simp [finalEdge]

theorem unusedEdge_keeps (s : State) :
    (unusedEdge s).st = s.st ∧ (unusedEdge s).keyR = s.keyR ∧ (unusedEdge s).opR = s.opR ∧
      (unusedEdge s).klenR = s.klenR ∧ (unusedEdge s).rnd = s.rnd ∧ (unusedEdge s).sched = s.sched ∧
      (unusedEdge s).blkOut = s.blkOut ∧ (unusedEdge s).err = s.err ∧ (unusedEdge s).errCode = s.errCode ∧
      (unusedEdge s).resetSeen = s.resetSeen ∧ (unusedEdge s).host = s.host := by
  simp [unusedEdge]

end Sys2Proof.Machine
end

