-- ==== Sys2Proof/Laws/KeyExpand.lean ====
section
/-! SUPPORT. The key expansion loop: how long its result is, and that it only adds words at the end. -/

namespace Sys2Proof.Machine

theorem expandWords_length (nk n : Nat) (ws vs : List Word) (h : expandWords nk n ws = some vs) :
    vs.length = ws.length + n := by
  induction n generalizing ws with
  | zero =>
    simp only [expandWords, Option.some.injEq] at h
    subst h
    simp
  | succ n ih =>
    unfold expandWords at h
    split at h
    · rw [ih _ h]
      simp
      omega
    · cases h

/-- The words there at the start stay where they are. -/
theorem expandWords_prefix (nk n : Nat) (ws vs : List Word) (h : expandWords nk n ws = some vs) (i : Nat)
    (hi : i < ws.length) : vs.getD i 0#32 = ws.getD i 0#32 := by
  induction n generalizing ws with
  | zero =>
    simp only [expandWords, Option.some.injEq] at h
    rw [h]
  | succ n ih =>
    unfold expandWords at h
    split at h
    · rename_i w _
      rw [ih _ h (by simp; omega)]
      simp [List.getD_eq_getElem?_getD, List.getElem?_append_left hi]
    · cases h

@[simp] theorem seedWords_length (key : KeyBus) (klen : Klen) : (seedWords key klen).length = nkOf klen := by
  simp [seedWords]

theorem seedWords_getD (key : KeyBus) (klen : Klen) (i : Nat) (hi : i < nkOf klen) :
    (seedWords key klen).getD i 0#32 = keyWord key i := by
  simp [seedWords, List.getD_eq_getElem?_getD, hi]

theorem nkOf_le_scheduleLength (klen : Klen) : nkOf klen ≤ scheduleLength klen := by
  revert klen
  decide

theorem scheduleLength_le (klen : Klen) : scheduleLength klen ≤ 60 := by
  revert klen
  decide

theorem scheduleWords_length (key : KeyBus) (klen : Klen) (ws : List Word) (h : scheduleWords key klen = some ws) :
    ws.length = scheduleLength klen := by
  have h1 := expandWords_length _ _ _ _ h
  have h2 := nkOf_le_scheduleLength klen
  rw [seedWords_length] at h1
  omega

/-- The word that the loop adds at index `i`, from the finished schedule (rule R105). -/
theorem expandWords_next (nk n : Nat) (ws vs : List Word) (hnk : 0 < nk) (hws : nk ≤ ws.length)
    (h : expandWords nk n ws = some vs) (i : Nat) (hlo : ws.length ≤ i) (hhi : i < ws.length + n) :
    nextWord nk i (vs.getD (i - 1) 0#32) (vs.getD (i - nk) 0#32) = some (vs.getD i 0#32) := by
  induction n generalizing ws with
  | zero => omega
  | succ n ih =>
    unfold expandWords at h
    split at h
    · rename_i w hw
      by_cases hi : i = ws.length
      · subst hi
        have h0 := expandWords_prefix _ _ _ _ h ws.length (by simp)
        have h1 := expandWords_prefix _ _ _ _ h (ws.length - 1) (by simp)
        have h2 := expandWords_prefix _ _ _ _ h (ws.length - nk) (by simp)
        have e0 : (ws ++ [w]).getD ws.length 0#32 = w := by simp [List.getD_eq_getElem?_getD]
        have e1 : (ws ++ [w]).getD (ws.length - 1) 0#32 = ws.getD (ws.length - 1) 0#32 := by
          simp only [List.getD_eq_getElem?_getD, List.getElem?_append_left (show ws.length - 1 < ws.length by omega)]
        have e2 : (ws ++ [w]).getD (ws.length - nk) 0#32 = ws.getD (ws.length - nk) 0#32 := by
          simp only [List.getD_eq_getElem?_getD, List.getElem?_append_left (show ws.length - nk < ws.length by omega)]
        rw [h0, h1, h2, e0, e1, e2]
        exact hw
      · exact ih (ws ++ [w]) (by simp; omega) h (by simp; omega) (by simp; omega)
    · cases h

end Sys2Proof.Machine
end

