-- ==== Sys2Proof/Laws/PerInstr.lean ====
section
/-! SUPPORT. What is said of every command as syntax, one lemma per constructor: its issue word belongs to its own row of the opcode
table and to no other row (rule R64). -/

namespace Sys2Proof.Laws.OwnOpcodeRow

/-- The rows of the opcode table that the command's issue word belongs to are its own row alone. -/
def Statement (i : Instr) : Prop :=
  i.wellFormed = true ∧ (opcodeTable.filter fun r => r.covers (encode i)).map OpcodeRow.mnemonic = [i.mnemonic]

theorem enc128 : Statement .enc128 := by unfold Statement; decide
theorem dec128 : Statement .dec128 := by unfold Statement; decide
theorem enc192 : Statement .enc192 := by unfold Statement; decide
theorem dec192 : Statement .dec192 := by unfold Statement; decide
theorem enc256 : Statement .enc256 := by unfold Statement; decide
theorem dec256 : Statement .dec256 := by unfold Statement; decide

theorem nop (klen : Klen) (op : Op) : Statement (.nop klen op) := by
  unfold Statement
  revert klen
  cases op <;> decide

theorem bad (op : Op) : Statement (.bad op) := by
  unfold Statement
  cases op <;> decide

end Sys2Proof.Laws.OwnOpcodeRow
end

