-- ==== Sys2Proof/Tests/Slice0.lean ====
section
/-! SUPPORT. Tests of the model against values written in spec/ (95_test_vectors.md unless said otherwise), one edge at most each, and
for every statement with hypotheses a concrete state that meets them. -/

namespace Sys2Proof.Tests

open Sys2Proof.Machine

/-! ### Helpers -/

/-- A machine after reset in a given state of the state machine. -/
def machineIn (f : Fsm) (op : Op) (klen : Klen) (rnd : BitVec 4) (host : List Ports) : State :=
  { State.reset with fsm := f, opR := op, klenR := klen, rnd := rnd, host := host }

/-- A machine ready to take a command, with one on the ports and buses of known contents. -/
def presented (i : Instr) : State :=
  { State.reset with
    host := [{ Ports.low with blkIn := 0x11#128, keyIn := 0x22#256 }.withIssue (encode i)] }

/-- The registers of a next state that a test looks at. -/
def after (o : Host.Outcome State Fault Refusal) (f : State → Bool) : Bool :=
  match o with
  | .next t => f t
  | .fault _ => false
  | .refused _ => false

def stops (o : Host.Outcome State Fault Refusal) : Bool :=
  match o with
  | .next _ => false
  | .fault _ => true
  | .refused _ => true

/-- The AES-128 key of V-KAT1 on the key bus. -/
def katKey : KeyBus := 0x000102030405060708090a0b0c0d0e0f00000000000000000000000000000000#256

def resetPorts : Ports := { Ports.low with rst := true }

/-! ### Well-formedness: one ill-formed line for each check (rules R154, R63, R67 and R68) -/

theorem test_wellFormed_accepts_enc128 :
    (Line.issue .enc128 (List.replicate 16 0#8) (List.replicate 16 0#8)).wellFormed = true := by decide

theorem test_wellFormed_refuses_short_block :
    (Line.issue .enc128 (List.replicate 15 0#8) (List.replicate 16 0#8)).wellFormed = false := by decide

/-- V-KAT2: the 24-byte key does not fit AES-256. -/
theorem test_wellFormed_refuses_wrong_key_length :
    (Line.issue .enc256 (List.replicate 16 0#8) (List.replicate 24 0#8)).wellFormed = false := by decide

theorem test_wellFormed_refuses_operands_of_nop :
    (Line.issue (.nop 0#2 .encrypt) [0#8] []).wellFormed = false := by decide

theorem test_wellFormed_refuses_key_of_bad : (Line.issue (.bad .encrypt) [] [0#8]).wellFormed = false := by decide

theorem test_wellFormed_refuses_run_of_nop : (Pseudo.run nopLine).wellFormed = false := by decide

theorem test_wellFormed_refuses_run_of_reset : (Pseudo.run .reset).wellFormed = false := by decide

theorem test_wellFormed_refuses_run_of_ill_formed_line : (Pseudo.run (.issue .dec128 [] [])).wellFormed = false := by
  decide

/-! ### Decoding: words written out from rule R64 -/

theorem test_decode_enc128 : decode 0b1000#4 = .enc128 := by decide
theorem test_decode_dec128 : decode 0b1001#4 = .dec128 := by decide
theorem test_decode_enc192 : decode 0b1010#4 = .enc192 := by decide
theorem test_decode_dec192 : decode 0b1011#4 = .dec192 := by decide
theorem test_decode_enc256 : decode 0b1100#4 = .enc256 := by decide
theorem test_decode_dec256 : decode 0b1101#4 = .dec256 := by decide
theorem test_decode_nop : decode 0b0000#4 = .nop 0b00#2 .encrypt ∧ decode 0b0111#4 = .nop 0b11#2 .decrypt := by decide
theorem test_decode_bad : decode 0b1110#4 = .bad .encrypt ∧ decode 0b1111#4 = .bad .decrypt := by decide

/-- A byte with a bit above the issue word is rejected by name, and so is the empty string. -/
theorem test_decode_rejects : decodeBytes [0x18#8] = .error .strayBits ∧ decodeBytes [] = .error .noWord := by
  constructor <;> rfl

theorem test_decodeTableWord : decodeTableWord 8 0xD = some .dec256 ∧ decodeTableWord 8 0x10 = none := by decide

/-! ### One edge of each command (rules R128, R131, R152 and V-CMD3, V-ERR1) -/

/-- Acceptance: operands latched, `busy` up, `done` down, `blk_out` kept (rule R131). -/
def accepted (op : Op) (klen : Klen) (t : State) : Bool :=
  t.fsm == .keyexp && t.st == 0x11#128 && t.keyR == 0x22#256 && t.opR == op && t.klenR == klen && t.busy && !t.done &&
    !t.err && t.errCode == 0#2 && t.blkOut == 0#128

theorem test_step_enc128 : after (step (presented .enc128)) (accepted .encrypt 0b00#2) = true := by decide
theorem test_step_dec128 : after (step (presented .dec128)) (accepted .decrypt 0b00#2) = true := by decide
theorem test_step_enc192 : after (step (presented .enc192)) (accepted .encrypt 0b01#2) = true := by decide
theorem test_step_dec192 : after (step (presented .dec192)) (accepted .decrypt 0b01#2) = true := by decide
theorem test_step_enc256 : after (step (presented .enc256)) (accepted .encrypt 0b10#2) = true := by decide
theorem test_step_dec256 : after (step (presented .dec256)) (accepted .decrypt 0b10#2) = true := by decide

/-- A NOP in the `done` cycle clears `done` and nothing else (rule R128). -/
theorem test_step_nop :
    step { presented (.nop 0b10#2 .decrypt) with done := true, err := true, errCode := 0b01#2 } =
      .next { State.reset with err := true, errCode := 0b01#2 } := by rfl

/-- V-ERR1 and V-ERR2. -/
theorem test_step_bad :
    after (step (presented (.bad .encrypt))) (fun t => t.fsm == .idle && t.done && t.err && t.errCode == 0b01#2) = true ∧
      after (step (presented (.bad .decrypt))) (fun t => t.fsm == .idle && t.done && t.err && t.errCode == 0b01#2) = true := by
  decide

/-- P3, line 4: a command presented while busy leaves no trace; the INIT edge runs. -/
theorem test_step_command_while_busy :
    after (step { machineIn .init .encrypt 0b10#2 0#4 (presented .dec128).host with keyR := 5#256 })
      (fun t => t.fsm == .round && t.rnd == 1#4 && t.keyR == 5#256 && t.opR == .encrypt) = true := by decide

/-- P6, line 6: reset in the middle of a command. -/
theorem test_step_reset_while_busy :
    after (step { machineIn .round .encrypt 0b00#2 2#4 [resetPorts] with blkOut := 7#128 })
      (fun t => t.fsm == .idle && t.blkOut == 0#128 && !t.done && t.rnd == 2#4) = true := by decide

/-- Before the first reset an edge is a fault; with `rst = 1` it is the reset (rule R172). -/
theorem test_step_before_reset : stops (step (State.powerUp [])) = true ∧
    after (step (State.powerUp [resetPorts])) (fun t => t.resetSeen && t.fsm == .idle) = true := by decide

/-- A ROUND edge with `rnd = 15` has no round key (rule R25). -/
theorem test_step_no_round_key : step (machineIn .round .encrypt 0b00#2 15#4 []) = .fault .noSuchRoundKey := by rfl

/-! ### The edges of V-FSM1 (encryption) and V-FSM2 (decryption) -/

/-- V-FSM1 E1 and V-KEY1: the first and last words of the schedule. -/
theorem test_keyexp_edge :
    after (step { machineIn .keyexp .encrypt 0b00#2 0#4 [] with keyR := katKey })
      (fun t => t.fsm == .init && t.sched[4] == 0xd6aa74fd#32 && t.sched[43] == 0x4d2b30c5#32 && t.sched[44] == 0#32) =
        true := by decide +kernel

def katSchedule : Schedule := scheduleOf (keyExpand katKey 0b00#2).wOut

/-- V-FSM1 E3. -/
theorem test_round_edge_encrypt :
    after (step { machineIn .round .encrypt 0b00#2 1#4 [] with
                  st := 0x00102030405060708090a0b0c0d0e0f0#128, sched := katSchedule })
      (fun t => t.st == 0x89d810e8855ace682d1843d8cb128fe4#128 && t.rnd == 2#4 && t.fsm == .round) = true := by
  decide +kernel

/-- V-FSM2 E3. -/
theorem test_round_edge_decrypt :
    after (step { machineIn .round .decrypt 0b00#2 9#4 [] with
                  st := 0x7ad5fda789ef4e272bca100b3d9ff59f#128, sched := katSchedule })
      (fun t => t.st == 0x54d990a16ba09ab596bbf40ea111702f#128 && t.rnd == 8#4 && t.fsm == .round) = true := by
  decide +kernel

/-- V-FSM1 E12. -/
theorem test_final_edge_encrypt :
    after (step { machineIn .final .encrypt 0b00#2 10#4 [] with
                  st := 0xbd6e7c3df2b5779e0b61216e8b10b689#128, sched := katSchedule })
      (fun t => t.blkOut == 0x69c4e0d86a7b0430d8cdb78070b4c55a#128 && t.done && t.fsm == .idle) = true := by
  decide +kernel

/-- V-FSM2 E12. -/
theorem test_final_edge_decrypt :
    after (step { machineIn .final .decrypt 0b00#2 0#4 [] with
                  st := 0x6353e08c0960e104cd70b751bacad0e7#128, sched := katSchedule })
      (fun t => t.blkOut == 0x00112233445566778899aabbccddeeff#128 && t.done && t.fsm == .idle) = true := by
  decide +kernel

/-! ### Pure functions (V-GF, V-TAB, V-MAP, V-FWD, V-INV, V-KEY, V-CMD1) -/

theorem test_fixed_multipliers : xtime 0x80#8 = 0x1b#8 ∧ mul3 0x80#8 = 0x9b#8 ∧ mul9 0x80#8 = 0xec#8 ∧
    mulB 0x80#8 = 0xf7#8 ∧ mulD 0x80#8 = 0xda#8 ∧ mulE 0x80#8 = 0x41#8 := by decide

theorem test_galoisMult8 : galoisMult8 0x57#8 0x83#8 = 0xc1#8 ∧ galoisMult8 0xff#8 0xff#8 = 0x13#8 := by decide

theorem test_tables : romSbox 0x53#8 = 0xed#8 ∧ romSbox 0xff#8 = 0x16#8 ∧ romInvSbox 0x52#8 = 0x48#8 ∧
    romInvSbox 0xff#8 = 0x7d#8 ∧ romRcon 9 = some 0x1b#8 ∧ romRcon 11 = none ∧ romRcon 0 = none := by decide

theorem test_state_layout : stateByte 0x00112233445566778899aabbccddeeff#128 1 0 = 0x11#8 ∧
    stateByte 0x00112233445566778899aabbccddeeff#128 0 1 = 0x44#8 ∧
    stateByte 0x00112233445566778899aabbccddeeff#128 3 3 = 0xff#8 ∧ keyWord katKey 3 = 0x0c0d0e0f#32 := by decide

theorem test_subBytes : subBytes 0x00102030405060708090a0b0c0d0e0f0#128 = 0x63cab7040953d051cd60e0e7ba70e18c#128 := by
  decide +kernel

theorem test_shiftRows : shiftRows 0x63cab7040953d051cd60e0e7ba70e18c#128 = 0x6353e08c0960e104cd70b751bacad0e7#128 := by
  decide +kernel

theorem test_mixColumns : mixColumns 0xdb135345f20a225c01010101c6c6c6c6#128 = 0x8e4da1bc9fdc589d01010101c6c6c6c6#128 := by
  decide +kernel

theorem test_invShiftRows :
    invShiftRows 0x7ad5fda789ef4e272bca100b3d9ff59f#128 = 0x7a9f102789d5f50b2beffd9f3dca4ea7#128 := by decide +kernel

theorem test_invSubBytes :
    invSubBytes 0x7a9f102789d5f50b2beffd9f3dca4ea7#128 = 0xbd6e7c3df2b5779e0b61216e8b10b689#128 := by decide +kernel

theorem test_invMixColumns :
    invMixColumns 0xe9f74eec023020f61bf2ccf2353c21c7#128 = 0x54d990a16ba09ab596bbf40ea111702f#128 := by decide +kernel

theorem test_word_helpers : rotWord 0x09cf4f3c#32 = 0xcf4f3c09#32 ∧ subWord 0xcf4f3c09#32 = 0x8a84eb01#32 ∧
    rcon 10 = some 0x36000000#32 ∧ rcon 11 = none := by decide +kernel

/-- V-KEY8. -/
theorem test_keyExpand_illegal : keyExpand katKey 0b11#2 =
    { wOut := 0#1920, nr := 0#4, nk := 0#4, kerr := true, rconErr := false } := by rfl

/-- V-CMD2: a zero-padded 16-byte key is another AES-256 key. -/
theorem test_aesEnc_padded_key : aesEnc 0x00112233445566778899aabbccddeeff#128 katKey .aes256 =
    0xc976274dba02fb5dc55878e448c39b8c#128 := by decide +kernel

/-- V-CMD1, the all-ff AES-192 decryption. -/
theorem test_aesDec_all_ones : aesDec (BitVec.allOnes 128) (0xffffffffffffffffffffffffffffffffffffffffffffffff0000000000000000#256)
    .aes192 = 0x6a815b659f8b1dc6a685987726671e9f#128 := by decide +kernel

/-- V-MAP1: the 16-byte key of a line goes to the top of the key bus. -/
theorem test_linePorts_key : (linePorts (.issue .enc128 [] [0x00#8, 0x01#8])).keyIn =
    0x0001000000000000000000000000000000000000000000000000000000000000#256 := by decide

/-! ### Witnesses: states and operands that meet the hypotheses of the statements -/

theorem witness_wellFormed_command : (Instr.bad .decrypt).wellFormed = true ∧ (Instr.nop 0b11#2 .decrypt).wellFormed = true := by
  decide

theorem witness_decoded_command : (presented .dec192).ports.rst = false ∧
    issueWord (presented .dec192).ports = encode .dec192 ∧ Instr.dec192.wellFormed = true := by decide

theorem witness_placed_word : decodeTableWord 8 0xF = some (.bad .decrypt) ∧ decodeTableWord 8 0 = some (.nop 0#2 .encrypt) := by
  decide

theorem witness_well_formed_lines : (Line.issue .enc192 (List.replicate 16 1#8) (List.replicate 24 2#8)).wellFormed = true ∧
    nopLine.wellFormed = true ∧ (0 : Nat) < 16 ∧ 31 < 32 := by decide

theorem witness_ready : State.reset.ready ∧ (presented .enc128).ready := by
  unfold State.ready
  decide

/-- NopOnlyClearsDone, LegalCommandsAreAccepted: the ports of an accepted command. -/
theorem witness_legal_ports : (presented .dec256).ready ∧ (presented .dec256).ports.rst = false ∧
    (presented .dec256).ports.start = true ∧ (presented .dec256).ports.klen ≠ 0b11#2 := by
  unfold State.ready
  decide

theorem witness_illegal_ports : (presented (.bad .encrypt)).ready ∧ (presented (.bad .encrypt)).ports.rst = false ∧
    (presented (.bad .encrypt)).ports.start = true ∧ (presented (.bad .encrypt)).ports.klen = 0b11#2 := by
  unfold State.ready
  decide

theorem witness_busy : (machineIn .keyexp .encrypt 0b00#2 0#4 []).busy = true ∧
    (machineIn .final .encrypt 0b00#2 0#4 []).busy = true ∧ Ports.low.rst = false := by decide

theorem witness_keyexp : (machineIn .keyexp .decrypt 0b10#2 0#4 []).resetSeen = true ∧
    (machineIn .keyexp .decrypt 0b10#2 0#4 []).fsm = .keyexp := by decide

/-- InitEdgeAddsTheFirstRoundKey, both clauses. -/
theorem witness_init (op : Op) : (machineIn .init op 0b01#2 0#4 []).resetSeen = true ∧
    (machineIn .init op 0b01#2 0#4 []).fsm = .init ∧ (machineIn .init op 0b01#2 0#4 []).klenR ≠ 0b11#2 ∧
    (machineIn .init op 0b01#2 0#4 []).opR = op := by
  cases op <;> decide

/-- RoundStateEncrypts, one edge: the last full round of AES-256. -/
theorem witness_round_edge_encrypt (s : State) (hs : s = machineIn .round .encrypt 0b10#2 13#4 []) :
    s.resetSeen = true ∧ s.fsm = .round ∧ s.opR = .encrypt ∧ s.klenR ≠ 0b11#2 ∧ s.rnd.toNat = (13 : Fin 15).val := by
  subst hs
  decide

/-- RoundStateEncrypts, the whole state: AES-256 from round 1, thirteen cycles. -/
theorem witness_round_state_encrypt (s : State) (hs : s = machineIn .round .encrypt 0b10#2 1#4 []) :
    s.resetSeen = true ∧ s.fsm = .round ∧ s.opR = .encrypt ∧ s.klenR ≠ 0b11#2 ∧ s.rnd = 1#4 ∧
      s.noReset ((nrOf s.klenR).val - 1) := by
  subst hs
  unfold State.noReset
  decide

/-- RoundStateDecrypts, one edge: the last full round. -/
theorem witness_round_edge_decrypt (s : State) (hs : s = machineIn .round .decrypt 0b00#2 1#4 []) :
    s.resetSeen = true ∧ s.fsm = .round ∧ s.opR = .decrypt ∧ s.rnd.toNat = (1 : Fin 15).val := by
  subst hs
  decide

/-- RoundStateDecrypts, the whole state: AES-128 from round 9, nine cycles. -/
theorem witness_round_state_decrypt (s : State) (hs : s = machineIn .round .decrypt 0b00#2 9#4 []) :
    s.resetSeen = true ∧ s.fsm = .round ∧ s.opR = .decrypt ∧ s.klenR ≠ 0b11#2 ∧
      s.rnd.toNat = (nrOf s.klenR).val - 1 ∧ s.noReset ((nrOf s.klenR).val - 1) := by
  subst hs
  unfold State.noReset
  decide

/-- FinalEdgeWritesTheResult, the encryption clause, with the highest round key. -/
theorem witness_final_encrypt (s : State) (hs : s = machineIn .final .encrypt 0b10#2 14#4 []) :
    s.resetSeen = true ∧ s.fsm = .final ∧ s.klenR ≠ 0b11#2 ∧ s.rnd.toNat = (14 : Fin 15).val ∧
      (14 : Fin 15).val = finalIndex s.opR s.klenR ∧ s.opR = .encrypt := by
  subst hs
  decide

/-- FinalEdgeWritesTheResult, the decryption clause, with round key 0. -/
theorem witness_final_decrypt (s : State) (hs : s = machineIn .final .decrypt 0b10#2 0#4 []) :
    s.resetSeen = true ∧ s.fsm = .final ∧ s.klenR ≠ 0b11#2 ∧ s.rnd.toNat = (0 : Fin 15).val ∧
      (0 : Fin 15).val = finalIndex s.opR s.klenR ∧ s.opR = .decrypt := by
  subst hs
  decide

theorem witness_unused (s : State) (hs : s = machineIn .unused7 .encrypt 0#2 0#4 []) :
    s.resetSeen = true ∧ (s.fsm = .unused5 ∨ s.fsm = .unused6 ∨ s.fsm = .unused7) ∧ ∃ t, step s = .next t := by
  subst hs
  exact ⟨by decide, by decide, _, rfl⟩

/-- ResetEdgeWritesTheVisibleRegisters and BootNeedsOneResetEdge: after a reset, and from power-up. -/
theorem witness_reset_edge : (machineIn .idle .encrypt 0#2 0#4 [resetPorts]).ports.rst = true ∧
    (State.powerUp [resetPorts]).ports.rst = true := by
  decide

/-- ResetAbortsARunningCommand: a busy machine, a reset and three quiet cycles after it. -/
theorem witness_reset_abort (s : State) (hs : s = machineIn .round .encrypt 0#2 2#4 [resetPorts]) :
    s.busy = true ∧ s.ports.rst = true ∧
      ∀ k, 1 ≤ k → k ≤ 3 → (s.portsAt k).rst = false ∧ (s.portsAt k).start = false := by
  subst hs
  refine ⟨by decide, by decide, ?_⟩
  intro k h1 h2
  interval_cases k <;> decide

theorem witness_before_reset : (State.powerUp []).resetSeen = false ∧ State.reset.resetSeen = true := by decide

/-- Every statement about `step s = .next t`: an edge that answers a next state, in IDLE, in KEYEXP, in ROUND and in FINAL. -/
theorem witness_step_next : after (step State.reset) (fun _ => true) = true ∧
    after (step (machineIn .round .decrypt 0b01#2 1#4 [])) (fun t => t.fsm == .final) = true ∧
    (machineIn .round .decrypt 0b01#2 1#4 []).klenR ≠ 0b11#2 := by decide +kernel

/-- EveryEdgeKeepsTheInvariant, NoEdgeAfterAResetStops: an idle machine and a busy one that meet the invariant. -/
theorem witness_invariant_idle : State.reset.Inv := by
  constructor <;> decide

/-- An edge of a machine that meets the invariant, which answers a next state. -/
theorem witness_invariant_step : State.reset.Inv ∧ ∃ t, step State.reset = .next t := ⟨witness_invariant_idle, _, rfl⟩

theorem witness_invariant_round :
    ({ machineIn .round .encrypt 0b00#2 9#4 [] with sched := scheduleOf (keyExpand 0#256 0b00#2).wOut } : State).Inv := by
  constructor <;> decide +kernel

/-- The command rules: a ready machine whose host drives no reset. -/
theorem witness_command_rule : (presented .enc256).ready ∧
    ∀ n, 1 ≤ n → n ≤ 16 → ((presented .enc256).portsAt n).rst = false := by
  refine ⟨by unfold State.ready; decide, ?_⟩
  intro n h1 h2
  interval_cases n <;> decide

/-- Two keys that differ only below the key, and agree on its bytes. -/
theorem witness_ignored_key_bits : (katKey ^^^ 1#256).extractLsb' 128 128 = katKey.extractLsb' 128 128 ∧
    (katKey ^^^ 1#256).extractLsb' 64 192 = katKey.extractLsb' 64 192 ∧ katKey ^^^ 1#256 ≠ katKey ∧
    ∀ i, i < KeyLen.aes192.bytes → keyByte katKey i = keyByte (katKey ^^^ 1#256) i := by decide

theorem witness_cycle_schedule : (presented .dec128).ready ∧ (presented .dec128).command = commandOf .aes128 .decrypt ∧
    (presented .dec128).noReset ((roundsOf .aes128).val + 3) := by
  unfold State.ready State.noReset
  decide

/-- HeldStartIssuesTheCommandAgain, first clause: the same ports for fourteen cycles. -/
theorem witness_held_start_legal (s : State)
    (hs : s = { State.reset with host := List.replicate 14 (presented .enc128).ports }) :
    s.ready ∧ s.command = commandOf .aes128 .encrypt ∧ s.ports.rst = false ∧
      ∀ n, n ≤ (roundsOf .aes128).val + 3 → s.portsAt n = s.ports := by
  subst hs
  refine ⟨by unfold State.ready; decide, by decide, by decide, ?_⟩
  intro n hn
  have hn' : n ≤ 13 := hn
  interval_cases n <;> decide

/-- HeldStartIssuesTheCommandAgain, second clause: the same ports for two cycles. -/
theorem witness_held_start_illegal (s : State)
    (hs : s = { State.reset with host := List.replicate 2 (presented (.bad .encrypt)).ports }) :
    s.ready ∧ s.command = .bad .encrypt ∧ s.ports.rst = false ∧ s.portsAt 1 = s.ports := by
  subst hs
  unfold State.ready
  decide

/-- HiddenRegistersNeverReachAnOutput: two different machines. -/
theorem witness_hidden_registers (t : State)
    (ht : t = { State.reset with st := 1#128, keyR := 2#256, klenR := 0b11#2, rnd := 15#4 }) :
    State.reset.ready ∧ State.reset.agreesOutsideDataRegisters t ∧ State.reset ≠ t := by
  subst ht
  unfold State.ready State.agreesOutsideDataRegisters
  decide

/-- EveryEdgeKeepsMachinesAlikeForTheHost: two different machines in KEYEXP, whose `rnd` and `SCHED` no rule has written yet, and an
edge of the first that answers a next state. -/
theorem witness_alike_for_host (s t : State) (hs : s = machineIn .keyexp .decrypt 0b10#2 3#4 [])
    (ht : t = { machineIn .keyexp .decrypt 0b10#2 15#4 [] with sched := Vector.replicate 60 1#32 }) :
    s.alikeForHost t ∧ s ≠ t ∧ ∃ s', step s = .next s' := by
  subst hs ht
  refine ⟨⟨by unfold State.agreesOutsideDataRegisters; decide, by unfold State.inCommand; decide, by decide, by decide⟩,
    by decide, _, rfl⟩

theorem witness_wait : waitLength .enc128 = some 13 ∧ waitLength .dec192 = some 15 ∧ waitLength .enc256 = some 17 ∧
    waitLength (.bad .decrypt) = some 1 := by decide

theorem witness_nonzero_byte : (0xff#8 : Byte) ≠ 0x00#8 ∧ (0x01#8 : Byte) ≠ 0x00#8 := by decide

theorem witness_rcon_ranges : (1 ≤ 1 ∧ 1 ≤ 10) ∧ (1 ≤ 10 ∧ 10 ≤ 10) ∧ (0 = 0 ∨ 10 < 0) ∧ (11 = 0 ∨ 10 < 11) ∧
    rcon 1 ≠ none ∧ rcon 10 ≠ none ∧ rcon 0 = none ∧ rcon 11 = none := by decide

theorem witness_state_positions : (0 : Nat) < 4 ∧ (3 : Nat) < 4 := by decide

/-- ScheduleWordsFollowTheRecurrence: an index at each end of each clause, for AES-128 and AES-256. -/
theorem witness_schedule_indices : (0b00#2 : Klen) ≠ 0b11#2 ∧ 3 < nkOf 0b00#2 ∧ nkOf 0b00#2 ≤ 4 ∧
    43 < 4 * ((nrOf 0b00#2).val + 1) ∧ 4 * ((nrOf 0b00#2).val + 1) ≤ 44 ∧ 40 % nkOf 0b00#2 = 0 ∧ 5 % nkOf 0b00#2 ≠ 0 ∧
    nkOf 0b10#2 > 6 ∧ 12 % nkOf 0b10#2 = 4 ∧ 52 % nkOf 0b10#2 = 4 := by decide

end Sys2Proof.Tests
end

section
/-! Every edge that answers a next state, branch by branch down to the ports and to aes_key_expand, said once as the relation
`Edge`; then what it says of `done`, `blk_out`, `err` and `err_code` (10_state.md). -/

namespace Sys2Proof.Machine

/-! ### The command on the ports -/

/-- Rule R152's two issue words are those with `start = 1` and `klen = 11`. -/
theorem issueWord_illegal_iff (p : Ports) :
    issueWord p = 0b1110#4 ∨ issueWord p = 0b1111#4 ↔ p.start = true ∧ p.klen = 0b11#2 := by
  unfold issueWord
  generalize p.start = start, p.klen = klen, p.op = op
  revert klen
  cases start <;> cases op <;> decide

theorem decode_issueWord_of_not_start (p : Ports) (hs : p.start = false) :
    decode (issueWord p) = .nop p.klen p.op := by
  rw [issueWord, hs]
  generalize p.klen = klen, p.op = op
  revert klen
  cases op <;> decide

theorem decode_issueWord_of_illegal (p : Ports) (hs : p.start = true) (hk : p.klen = 0b11#2) :
    decode (issueWord p) = .bad p.op := by
  rw [issueWord, hs, hk]
  cases p.op <;> decide

theorem decode_issueWord_of_legal (p : Ports) (k : KeyLen) (hs : p.start = true) (hk : p.klen = k.code) :
    decode (issueWord p) = commandOf k p.op := by
  rw [issueWord, hs, hk]
  cases k <;> cases p.op <;> decide

theorem exists_keyLen_of_legal (klen : Klen) (h : klen ≠ 0b11#2) : ∃ k : KeyLen, klen = k.code := by
  have hcodes : ∀ c : Klen, c = 0b11#2 ∨ c = KeyLen.aes128.code ∨ c = KeyLen.aes192.code ∨ c = KeyLen.aes256.code := by
    decide
  rcases hcodes klen with hc | hc | hc | hc
  · exact absurd hc h
  · exact ⟨.aes128, hc⟩
  · exact ⟨.aes192, hc⟩
  · exact ⟨.aes256, hc⟩

@[simp] theorem keyLen_code_ne_illegal (k : KeyLen) : k.code ≠ 0b11#2 := by
  cases k <;> decide

/-! ### Which edges reject a command -/

theorem State.rejects_iff_of_idle (s : State) (hf : s.fsm = .idle) :
    s.rejects = true ↔ s.ports.start = true ∧ s.ports.klen = 0b11#2 := by
  rw [← issueWord_illegal_iff]
  simp [State.rejects, hf]

theorem State.rejects_of_keyexp (s : State) (hf : s.fsm = .keyexp) :
    s.rejects = (keyExpand s.keyR s.klenR).rconErr := by
  simp [State.rejects, hf]

theorem State.rejects_of_other (s : State) (hi : s.fsm ≠ .idle) (hk : s.fsm ≠ .keyexp) : s.rejects = false := by
  unfold State.rejects
  split
  · exact absurd ‹_› hi
  · exact absurd ‹_› hk
  · rfl

/-! ### What the edges of the round state machine write -/

theorem keyexpEdge_of_rconErr (s : State) (h : (keyExpand s.keyR s.klenR).rconErr = true) :
    keyexpEdge s = s.reject .rconRange := by
  simp [keyexpEdge, h]

theorem keyexpEdge_of_not_rconErr (s : State) (h : (keyExpand s.keyR s.klenR).rconErr = false) :
    keyexpEdge s =
      { (s.setDone false) with sched := scheduleOf (keyExpand s.keyR s.klenR).wOut, fsm := .init } := by
  simp [keyexpEdge, h]

@[simp] theorem initEdge_done (s : State) : (initEdge s).done = false := by
  unfold initEdge
  cases s.opR <;> rfl

@[simp] theorem roundEdgeWith_done (s : State) (j : Fin 15) : (roundEdgeWith s j).done = false := by
  unfold roundEdgeWith
  cases s.opR <;> rfl

@[simp] theorem finalEdge_done (s : State) : (finalEdge s).done = true := rfl
@[simp] theorem finalEdge_fsm (s : State) : (finalEdge s).fsm = .idle := rfl
@[simp] theorem finalEdge_blkOut (s : State) : (finalEdge s).blkOut = finalValue s := rfl
@[simp] theorem unusedEdge_done (s : State) : (unusedEdge s).done = false := rfl
@[simp] theorem unusedEdge_fsm (s : State) : (unusedEdge s).fsm = .idle := rfl

/-! ### Every edge, branch by branch -/

/-- The next states of one edge, one constructor for each rule of 44_block_cipher.md and for reset, under the conditions on the
ports and registers that select the rule. -/
inductive Edge (s : State) : State → Prop
  | reset (hr : s.ports.rst = true) : Edge s s.resetEdge.nextCycle
  | nop (hr : s.ports.rst = false) (hf : s.fsm = .idle) (hs : s.ports.start = false) :
    Edge s (s.setDone false).nextCycle
  | illegal (hr : s.ports.rst = false) (hf : s.fsm = .idle) (hs : s.ports.start = true) (hk : s.ports.klen = 0b11#2) :
    Edge s (s.reject .klenInvalid).nextCycle
  | accept (hr : s.ports.rst = false) (hf : s.fsm = .idle) (hs : s.ports.start = true) (k : KeyLen)
    (hk : s.ports.klen = k.code) : Edge s (s.accept k s.ports.op).nextCycle
  | rconRange (hr : s.ports.rst = false) (hf : s.fsm = .keyexp) (he : (keyExpand s.keyR s.klenR).rconErr = true) :
    Edge s (s.reject .rconRange).nextCycle
  | keyexp (hr : s.ports.rst = false) (hf : s.fsm = .keyexp) (he : (keyExpand s.keyR s.klenR).rconErr = false) :
    Edge s (State.nextCycle
      { (s.setDone false) with sched := scheduleOf (keyExpand s.keyR s.klenR).wOut, fsm := .init })
  | init (hr : s.ports.rst = false) (hf : s.fsm = .init) : Edge s (initEdge s).nextCycle
  | round (hr : s.ports.rst = false) (hf : s.fsm = .round) (hlt : s.rnd.toNat < 15) :
    Edge s (roundEdgeWith s ⟨s.rnd.toNat, hlt⟩).nextCycle
  | final (hr : s.ports.rst = false) (hf : s.fsm = .final) : Edge s (finalEdge s).nextCycle
  | unused (hr : s.ports.rst = false) (hf : s.fsm = .unused5 ∨ s.fsm = .unused6 ∨ s.fsm = .unused7) :
    Edge s (unusedEdge s).nextCycle

/-- An edge in IDLE is one of the three commands' edges (rules R128, R131 and R152). -/
theorem Edge.of_idle (s : State) (hr : s.ports.rst = false) (hf : s.fsm = .idle) :
    Edge s (idleEffect s.command s).nextCycle := by
  unfold State.command
  cases hs : s.ports.start with
  | false =>
    rw [decode_issueWord_of_not_start _ hs]
    exact .nop hr hf hs
  | true =>
    by_cases hk : s.ports.klen = 0b11#2
    · rw [decode_issueWord_of_illegal _ hs hk]
      exact .illegal hr hf hs hk
    · obtain ⟨k, hk⟩ := exists_keyLen_of_legal _ hk
      rw [decode_issueWord_of_legal _ k hs hk, idleEffect_commandOf]
      exact .accept hr hf hs k hk

/-- An edge in KEYEXP loads the schedule or rejects the command (rules R132 and R153). -/
theorem Edge.of_keyexp (s : State) (hr : s.ports.rst = false) (hf : s.fsm = .keyexp) :
    Edge s (keyexpEdge s).nextCycle := by
  cases he : (keyExpand s.keyR s.klenR).rconErr with
  | false =>
    rw [keyexpEdge_of_not_rconErr s he]
    exact .keyexp hr hf he
  | true =>
    rw [keyexpEdge_of_rconErr s he]
    exact .rconRange hr hf he

/-- `Edge` covers every step that answers a next state. -/
theorem Edge.of_step {s t : State} (h : step s = .next t) : Edge s t := by
  obtain ⟨hr, rfl⟩ | ⟨hr, u, hu, rfl⟩ := step_cases s t h
  · exact .reset hr
  · obtain ⟨-, hidle | hkeyexp | hinit | hround | hfinal | hunused⟩ := clockEdge_cases _ s u hu
    · obtain ⟨hf, rfl⟩ := hidle
      exact .of_idle s hr hf
    · obtain ⟨hf, rfl⟩ := hkeyexp
      exact .of_keyexp s hr hf
    · obtain ⟨hf, rfl⟩ := hinit
      exact .init hr hf
    · obtain ⟨hf, hlt, rfl⟩ := hround
      exact .round hr hf hlt
    · obtain ⟨hf, rfl⟩ := hfinal
      exact .final hr hf
    · obtain ⟨hf, rfl⟩ := hunused
      exact .unused hr hf

/-! ### `done` -/

theorem Edge.done_iff {s t : State} (e : Edge s t) :
    t.done = true ↔ s.ports.rst = false ∧ (s.fsm = .final ∨ s.rejects = true) := by
  cases e with
  | reset hr => simp [hr]
  | nop hr hf hs => simp [hr, hf, hs, s.rejects_iff_of_idle hf]
  | illegal hr hf hs hk => simp [hr, hs, hk, s.rejects_iff_of_idle hf]
  | accept hr hf hs k hk => simp [hr, hf, hk, s.rejects_iff_of_idle hf]
  | rconRange hr hf he => simp [hr, he, s.rejects_of_keyexp hf]
  | keyexp hr hf he => simp [hr, hf, he, s.rejects_of_keyexp hf]
  | init hr hf => simp [hf, State.rejects_of_other]
  | round hr hf hlt => simp [hf, State.rejects_of_other]
  | final hr hf => simp [hr, hf]
  | unused hr hf => rcases hf with hf | hf | hf <;> simp [hf, State.rejects_of_other]

/-- Rule R137: the edges that raise `done`, FINAL and the two rejections, are edges into IDLE. -/
theorem Edge.idle_of_done {s t : State} (e : Edge s t) (h : t.done = true) : t.fsm = .idle := by
  cases e with
  | illegal | rconRange | final => simp
  | reset | nop | accept | keyexp | init | round | unused => simp at h

/-- Settles O23, by the cases of `Edge`. -/
theorem doneRisesExactlyWhenACommandEnds : Obligations.DoneRisesExactlyWhenACommandEnds := by
  intro s t h
  have e := Edge.of_step h
  refine ⟨e.done_iff, fun hd => ?_⟩
  have hf := e.idle_of_done hd
  exact ⟨hf, t.not_busy_iff.mpr hf⟩

/-! ### `blk_out` -/

theorem Edge.blkOut_eq {s t : State} (e : Edge s t) :
    t.blkOut = if s.ports.rst = true then 0#128 else if s.fsm = .final then finalValue s else s.blkOut := by
  cases e with
  | reset hr => simp [hr]
  | nop hr hf | illegal hr hf | accept hr hf | rconRange hr hf | keyexp hr hf => simp [hr, hf]
  | init hr hf => simp [hr, hf, initEdge_keeps]
  | round hr hf => simp [hr, hf, roundEdgeWith_keeps]
  | final hr hf => simp [hr, hf]
  | unused hr hf => rcases hf with hf | hf | hf <;> simp [hr, hf, unusedEdge_keeps]

/-- Settles O24, by the cases of `Edge`. -/
theorem blkOutIsWrittenOnlyByFinalAndReset : Obligations.BlkOutIsWrittenOnlyByFinalAndReset :=
  fun _ _ h => (Edge.of_step h).blkOut_eq

/-! ### `err` and `err_code` -/

theorem Edge.error_eq {s t : State} (e : Edge s t) :
    (t.err, t.errCode) =
      if s.ports.rst = true then (false, 0b00#2)
      else if s.fsm = .idle ∧ s.ports.start = true then
        (if s.ports.klen = 0b11#2 then (true, 0b01#2) else (false, 0b00#2))
      else if s.fsm = .keyexp ∧ (keyExpand s.keyR s.klenR).rconErr = true then (true, 0b10#2)
      else (s.err, s.errCode) := by
  cases e with
  | reset hr => simp [hr, ErrCode.bits]
  | nop hr hf hs => simp [hr, hf, hs]
  | illegal hr hf hs hk => simp [hr, hf, hs, hk, ErrCode.bits]
  | accept hr hf hs k hk => simp [hr, hf, hs, hk, ErrCode.bits]
  | rconRange hr hf he => simp [hr, hf, he, ErrCode.bits]
  | keyexp hr hf he => simp [hr, hf, he]
  | init hr hf => simp [hr, hf, initEdge_keeps]
  | round hr hf => simp [hr, hf, roundEdgeWith_keeps]
  | final hr hf => simp [hr, hf, finalEdge_keeps]
  | unused hr hf => rcases hf with hf | hf | hf <;> simp [hr, hf, unusedEdge_keeps]

/-- Settles O25, by the cases of `Edge`. -/
theorem errorFlagsAreWrittenTogether : Obligations.ErrorFlagsAreWrittenTogether :=
  fun _ _ h => (Edge.of_step h).error_eq

end Sys2Proof.Machine
end

section
/-! The block galois_mult_8 as a sum of iterated xtime terms, the remainder of rule R70 as an additive map that turns a shift into
xtime, and so the block as the reduced polynomial product (40_galois.md). -/

namespace Sys2Proof.Machine

/-! ### The block as a sum of terms -/

theorem and_byteMask (t : Byte) (c : Bool) : t &&& byteMask c = if c then t else 0x00#8 := by
  cases c with
  | false => simp [byteMask]
  | true => exact BitVec.and_allOnes

@[simp] theorem xtime_zero : xtime 0x00#8 = 0x00#8 := by decide

theorem xtime_eq_shiftLeft (b : Byte) : xtime b = b <<< 1 ^^^ if b.getLsbD 7 then 0x1b#8 else 0x00#8 := by
  have hshift : b.extractLsb' 0 7 ++ 0#1 = b <<< 1 := (BitVec.shiftLeft_eq_concat_of_lt (n := 1) (by decide)).symm
  rw [xtime, hshift, BitVec.and_comm, and_byteMask]

/-- Bit `i` of `b` times `x^i • a`: what the loop of rule R76 adds for that bit. -/
def xtimeTerm (a b : Byte) (i : Nat) : Byte := if b.getLsbD i then xtime^[i] a else 0x00#8

theorem galoisLoop_range' (a b p : Byte) (i n : Nat) :
    galoisLoop b (List.range' i n) p (xtime^[i] a) =
      (List.range' i n).foldl (fun q j => q ^^^ xtimeTerm a b j) p := by
  induction n generalizing i p with
  | zero => rfl
  | succ n ih =>
    rw [List.range'_succ, galoisLoop, List.foldl_cons, ← ih, and_byteMask, ← Function.iterate_succ_apply' xtime]
    rfl

theorem galoisMult8_eq_foldl (a b : Byte) :
    galoisMult8 a b = (List.range 8).foldl (fun q j => q ^^^ xtimeTerm a b j) 0x00#8 :=
  galoisLoop_range' a b 0x00#8 0 8

/-! ### The remainder of rule R70 -/

/-- One step of the reduction: bit `i + 8` is cleared by adding `x^i • m(x)`. -/
def clearBit (v : BitVec 15) (i : Nat) : BitVec 15 := if v.getLsbD (i + 8) then v ^^^ (0x11b#15 <<< i) else v

theorem polyReduce_eq_foldl (v : BitVec 15) :
    polyReduce v = ([6, 5, 4, 3, 2, 1, 0].foldl clearBit v).setWidth 8 := rfl

theorem clearBit_eq_xor (v : BitVec 15) (i : Nat) :
    clearBit v i = v ^^^ if v.getLsbD (i + 8) then 0x11b#15 <<< i else 0#15 := by
  unfold clearBit
  split <;> simp

theorem clearBit_of_not (v : BitVec 15) (i : Nat) (h : v.getLsbD (i + 8) = false) : clearBit v i = v := by
  simp [clearBit, h]

theorem clearBit_xor (v w : BitVec 15) (i : Nat) : clearBit (v ^^^ w) i = clearBit v i ^^^ clearBit w i := by
  have hmask (p q : Bool) (m : BitVec 15) :
      (if p ^^ q then m else 0#15) = (if p then m else 0#15) ^^^ if q then m else 0#15 := by
    cases p <;> cases q <;> simp
  simp only [clearBit_eq_xor, BitVec.getLsbD_xor, hmask]
  ac_rfl

theorem polyReduce_xor (v w : BitVec 15) : polyReduce (v ^^^ w) = polyReduce v ^^^ polyReduce w := by
  simp only [polyReduce_eq_foldl, ← BitVec.setWidth_xor]
  rw [List.foldl_hom₂ _ (· ^^^ ·) clearBit clearBit clearBit v w fun v w i => (clearBit_xor v w i).symm]

theorem polyReduce_setWidth (a : Byte) : polyReduce (a.setWidth 15) = a := by
  have hclear : ∀ i, clearBit (a.setWidth 15) i = a.setWidth 15 := fun i => clearBit_of_not _ i (by simp)
  simp [polyReduce_eq_foldl, hclear]

/-- Clearing bit `i + 9` of a shifted value is clearing bit `i + 8` of the value itself, while the shift drops neither. -/
theorem clearBit_shiftLeft_one (v : BitVec 15) (i : Nat) (hi : i < 6) : clearBit (v <<< 1) (i + 1) = clearBit v i <<< 1 := by
  have hbit : (v <<< 1).getLsbD (i + 1 + 8) = v.getLsbD (i + 8) := by
    have hlt : i + 1 + 8 < 15 := by omega
    have hsub : i + 1 + 8 - 1 = i + 8 := by omega
    rw [BitVec.getLsbD_shiftLeft, hsub]
    simp [hlt]
  unfold clearBit
  rw [hbit]
  split
  · rw [BitVec.shiftLeft_xor_distrib, BitVec.shiftLeft_add]
  · rfl

theorem foldl_clearBit_shiftLeft_one (v : BitVec 15) (is : List Nat) (his : ∀ i ∈ is, i < 6) :
    (is.map (· + 1)).foldl clearBit (v <<< 1) = is.foldl clearBit v <<< 1 := by
  induction is generalizing v with
  | nil => rfl
  | cons i is ih =>
    obtain ⟨hi, his⟩ := List.forall_mem_cons.mp his
    rw [List.map_cons, List.foldl_cons, clearBit_shiftLeft_one v i hi, ih _ his, List.foldl_cons]

/-- The last step of the reduction, on a shifted value, is xtime. -/
theorem clearBit_shiftLeft_one_zero (w : BitVec 15) : (clearBit (w <<< 1) 0).setWidth 8 = xtime (w.setWidth 8) := by
  have hshift : (w <<< 1).setWidth 8 = w.setWidth 8 <<< 1 := BitVec.setWidth_shiftLeft_of_le (by decide)
  have hbit : (w <<< 1).getLsbD 8 = (w.setWidth 8).getLsbD 7 := by simp
  rw [xtime_eq_shiftLeft, clearBit, hbit, ← hshift]
  split
  · rw [BitVec.setWidth_xor]; rfl
  · simp

theorem polyReduce_shiftLeft_one (v : BitVec 15) (h : v.getLsbD 14 = false) : polyReduce (v <<< 1) = xtime (polyReduce v) :=
  calc polyReduce (v <<< 1)
    _ = (clearBit (([5, 4, 3, 2, 1, 0].map (· + 1)).foldl clearBit (v <<< 1)) 0).setWidth 8 := rfl
    _ = (clearBit ([5, 4, 3, 2, 1, 0].foldl clearBit v <<< 1) 0).setWidth 8 := by
      rw [foldl_clearBit_shiftLeft_one v _ (by decide)]
    _ = xtime (([5, 4, 3, 2, 1, 0].foldl clearBit v).setWidth 8) := clearBit_shiftLeft_one_zero _
    _ = xtime (polyReduce v) := by rw [polyReduce_eq_foldl v, List.foldl_cons (a := 6), clearBit_of_not v 6 h]

theorem polyReduce_shiftLeft (a : Byte) (i : Nat) (hi : i < 8) : polyReduce (a.setWidth 15 <<< i) = xtime^[i] a := by
  induction i with
  | zero => simp [polyReduce_setWidth]
  | succ i ih =>
    have htop : (a.setWidth 15 <<< i).getLsbD 14 = false := by
      have hout : a.getLsbD (14 - i) = false := BitVec.getLsbD_of_ge _ _ (by omega)
      simp [hout]
    rw [BitVec.shiftLeft_add, polyReduce_shiftLeft_one _ htop, ih (by omega), Function.iterate_succ_apply']

/-! ### The reduced product -/

theorem polyReduce_mulTerm (a b : Byte) (i : Nat) :
    polyReduce (if b.getLsbD i then a.setWidth 15 <<< i else 0#15) = xtimeTerm a b i := by
  unfold xtimeTerm
  split
  · rename_i hb
    exact polyReduce_shiftLeft a i (BitVec.lt_of_getLsbD hb)
  · exact polyReduce_setWidth 0x00#8

theorem galoisMult8_eq_polyReduce (a b : Byte) : galoisMult8 a b = polyReduce (polyMul a b) := by
  rw [galoisMult8_eq_foldl, polyMul]
  refine List.foldl_hom (init := 0#15) polyReduce fun v i => ?_
  rw [polyReduce_xor, polyReduce_mulTerm]

/-! ### The corner cases of rule R76 -/

@[simp] theorem galoisLoop_zero_operand (is : List Nat) (p t : Byte) : galoisLoop 0x00#8 is p t = p := by
  induction is generalizing p t with
  | nil => rfl
  | cons i is ih => simp [galoisLoop, and_byteMask, ih]

@[simp] theorem galoisLoop_zero_term (b : Byte) (is : List Nat) (p : Byte) : galoisLoop b is p 0x00#8 = p := by
  induction is generalizing p with
  | nil => rfl
  | cons i is ih => simp [galoisLoop, ih]

@[simp] theorem galoisMult8_zero (a : Byte) : galoisMult8 a 0x00#8 = 0x00#8 := galoisLoop_zero_operand _ _ _
@[simp] theorem zero_galoisMult8 (b : Byte) : galoisMult8 0x00#8 b = 0x00#8 := galoisLoop_zero_term _ _ _

@[simp] theorem galoisMult8_one (a : Byte) : galoisMult8 a 0x01#8 = a := by
  simp [galoisMult8, galoisLoop, and_byteMask]

theorem galoisMult8_two (a : Byte) : galoisMult8 a 0x02#8 = xtime a := by
  simp [galoisMult8, galoisLoop, and_byteMask]

/-- Settles O36: the remainder is additive and turns shifts into xtime, so it sends the product's terms to the loop's terms. -/
theorem galoisMultIsTheReducedPolynomialProduct : Obligations.GaloisMultIsTheReducedPolynomialProduct := by
  refine ⟨galoisMult8_eq_polyReduce, fun a => ?_, by decide⟩
  exact ⟨galoisMult8_zero a, zero_galoisMult8 a, galoisMult8_one a, galoisMult8_two a⟩

end Sys2Proof.Machine
end

section
/-! Each byte of the result of a forward transformation, each byte of a round key from the words of the schedule, and AddRoundKey
as its own inverse (41_round_forward.md). -/

namespace Sys2Proof.Machine

/-! ### SubBytes, ShiftRows and MixColumns -/

@[simp] theorem stateByte_subBytes (st : Block) (r c : Nat) (hr : r < 4) (hc : c < 4) :
    stateByte (subBytes st) r c = romSbox (stateByte st r c) := stateByte_stateOfBytes _ r c hr hc

@[simp] theorem stateByte_shiftRows (st : Block) (r c : Nat) (hr : r < 4) (hc : c < 4) :
    stateByte (shiftRows st) r c = stateByte st r ((c + r) % 4) := stateByte_stateOfBytes _ r c hr hc

@[simp] theorem stateByte_mixColumns (st : Block) (r c : Nat) (hr : r < 4) (hc : c < 4) :
    stateByte (mixColumns st) r c = mixByte (fun i => stateByte st i c) r := stateByte_stateOfBytes _ r c hr hc

/-- Settles O42: each transformation is the State of the bytes that its rule gives. -/
theorem forwardTransformationsActOnStateBytes : Obligations.ForwardTransformationsActOnStateBytes :=
  fun st r c hr hc =>
    ⟨stateByte_subBytes st r c hr hc, stateByte_shiftRows st r c hr hc, stateByte_mixColumns st r c hr hc⟩

/-! ### AddRoundKey -/

/-- Column `c` of a round key is word `4j + c` of the schedule, byte 0 at row 0 (rules R46 and R83). -/
theorem stateByte_roundKey (sched : Schedule) (j : Fin 15) (r : Nat) (c : Fin 4) (hr : r < 4) :
    stateByte (roundKey sched j) r c.val = wordByte sched[4 * j.val + c.val] r := by
  have hpos : 120 - 8 * (r + 4 * c.val) = 24 - 8 * r + 32 * (3 - c.val) := by omega
  rw [stateByte, blockByte, hpos, roundKey, wordByte]
  fin_cases c
  · iterate 3 rw [BitVec.extractLsb'_append_eq_of_le (by simp)]
    rfl
  · iterate 2 rw [BitVec.extractLsb'_append_eq_of_le (by simp)]
    exact BitVec.extractLsb'_append_eq_of_add_le (by simp)
  · rw [BitVec.extractLsb'_append_eq_of_le (by simp)]
    exact BitVec.extractLsb'_append_eq_of_add_le (by simp)
  · exact BitVec.extractLsb'_append_eq_of_add_le (by simp)

@[simp] theorem stateByte_addRoundKey (sched : Schedule) (st : Block) (j : Fin 15) (r : Nat) (c : Fin 4) (hr : r < 4) :
    stateByte (addRoundKey sched st j) r c.val = stateByte st r c.val ^^^ wordByte sched[4 * j.val + c.val] r := by
  rw [addRoundKey, stateByte_xor, stateByte_roundKey sched j r c hr]

@[simp] theorem addRoundKey_addRoundKey (sched : Schedule) (st : Block) (j : Fin 15) :
    addRoundKey sched (addRoundKey sched st j) j = st := by
  simp [addRoundKey]

/-- Settles O44: byte `r` of column `c` of the round key is byte `r` of its schedule word. -/
theorem addRoundKeyXorsTheScheduleBytes : Obligations.AddRoundKeyXorsTheScheduleBytes :=
  fun sched st j => ⟨stateByte_addRoundKey sched st j, addRoundKey_addRoundKey sched st j⟩

end Sys2Proof.Machine
end

section
/-! Each byte of the result of an inverse transformation (42_round_inverse.md). -/

namespace Sys2Proof.Machine

@[simp] theorem stateByte_invShiftRows (st : Block) (r c : Nat) (hr : r < 4) (hc : c < 4) :
    stateByte (invShiftRows st) r c = stateByte st r ((c + 4 - r) % 4) := stateByte_stateOfBytes _ r c hr hc

@[simp] theorem stateByte_invSubBytes (st : Block) (r c : Nat) (hr : r < 4) (hc : c < 4) :
    stateByte (invSubBytes st) r c = romInvSbox (stateByte st r c) := stateByte_stateOfBytes _ r c hr hc

@[simp] theorem stateByte_invMixColumns (st : Block) (r c : Nat) (hr : r < 4) (hc : c < 4) :
    stateByte (invMixColumns st) r c = invMixByte (fun i => stateByte st i c) r := stateByte_stateOfBytes _ r c hr hc

/-- The model adds 4 before it subtracts, so that no difference is cut off at 0; rule R90 takes the non-negative remainder. -/
theorem int_sub_emod_four_toNat (r c : Nat) (hr : r < 4) : (((c : Int) - (r : Int)) % 4).toNat = (c + 4 - r) % 4 := by
  omega

/-- Settles O43: each transformation is the State of the bytes that its rule gives, once R90's column is a difference of naturals. -/
theorem inverseTransformationsActOnStateBytes : Obligations.InverseTransformationsActOnStateBytes := by
  intro st r c hr hc
  rw [int_sub_emod_four_toNat r c hr]
  exact ⟨stateByte_invShiftRows st r c hr hc, stateByte_invSubBytes st r c hr hc, stateByte_invMixColumns st r c hr hc⟩

end Sys2Proof.Machine
end

section
/-! The outputs `nk`, `nr` and `kerr` of aes_key_expand (43_key_expand.md). -/

namespace Sys2Proof.Machine

/-- Rule R101: the illegal key length. -/
@[simp] theorem keyExpand_illegal (key : KeyBus) :
    keyExpand key 0b11#2 = { wOut := 0#1920, nr := 0#4, nk := 0#4, kerr := true, rconErr := false } := if_pos rfl

/-- Rule R102: the counts of a legal key length do not wait for the words; they are the same if the schedule ended in RCON_RANGE. -/
theorem keyExpand_counts_of_legal (key : KeyBus) (klen : Klen) (h : klen ≠ 0b11#2) :
    (keyExpand key klen).nk = BitVec.ofNat 4 (nkOf klen) ∧ (keyExpand key klen).nr = BitVec.ofNat 4 (nrOf klen).val ∧
      (keyExpand key klen).kerr = false := by
  rw [keyExpand, if_neg h]
  cases scheduleWords key klen with
  | some ws => exact ⟨rfl, rfl, rfl⟩
  | none => exact ⟨rfl, rfl, rfl⟩

/-- Settles O49: each legal klen has the counts of `nkOf` and `nrOf`, and the illegal one all zeros with `kerr`. -/
theorem keyExpandPortsForEachKeyLength : Obligations.KeyExpandPortsForEachKeyLength := fun key =>
  ⟨keyExpand_counts_of_legal key 0b00#2 (by decide), keyExpand_counts_of_legal key 0b01#2 (by decide),
    keyExpand_counts_of_legal key 0b10#2 (by decide), rfl, rfl, rfl, keyExpand_illegal key⟩

end Sys2Proof.Machine
end

section
/-! The edges of the round state machine one at a time, as equations between a state and its next state (44_block_cipher.md, rules
R128 to R139), and the transition table of `fsm` that they make up. -/

namespace Sys2Proof.Machine

/-! ### The edge of each state of the machine, as `exec` and as `step` -/

theorem exec_of_ready (i : Instr) (s : State) (h : s.ready) : exec i s = .next (idleEffect i s) := by
  obtain ⟨hseen, hf⟩ := h
  rw [exec_eq_clockEdge, clockEdge_idle _ s hseen hf]

theorem exec_of_keyexp (i : Instr) (s : State) (hseen : s.resetSeen = true) (hf : s.fsm = .keyexp) :
    exec i s = .next (keyexpEdge s) := by
  rw [exec_eq_clockEdge, clockEdge_keyexp _ s hseen hf]

theorem exec_of_init (i : Instr) (s : State) (hseen : s.resetSeen = true) (hf : s.fsm = .init) :
    exec i s = .next (initEdge s) := by
  rw [exec_eq_clockEdge, clockEdge_init _ s hseen hf]

/-- In ROUND the round key's index is `rnd` (rules R134 and R135). -/
theorem exec_of_round (i : Instr) (s : State) (j : Fin 15) (hseen : s.resetSeen = true) (hf : s.fsm = .round)
    (hj : s.rnd.toNat = j.val) : exec i s = .next (roundEdgeWith s j) := by
  have hlt : s.rnd.toNat < 15 := hj ▸ j.isLt
  have hfin : (⟨s.rnd.toNat, hlt⟩ : Fin 15) = j := Fin.ext hj
  rw [exec_eq_clockEdge, clockEdge_round _ s hseen hf, roundEdge, dif_pos hlt, hfin]

theorem exec_of_final (i : Instr) (s : State) (hseen : s.resetSeen = true) (hf : s.fsm = .final) :
    exec i s = .next (finalEdge s) := by
  rw [exec_eq_clockEdge, clockEdge_final _ s hseen hf]

theorem exec_of_unused (i : Instr) (s : State) (hseen : s.resetSeen = true)
    (hf : s.fsm = .unused5 ∨ s.fsm = .unused6 ∨ s.fsm = .unused7) : exec i s = .next (unusedEdge s) := by
  rw [exec_eq_clockEdge, clockEdge_unused _ s hseen hf]

/-- With `rst = 0` the step is the edge of the command on the ports, and the cycle is over. -/
theorem step_of_exec (s t : State) (hr : s.ports.rst = false) (h : exec s.command s = .next t) :
    step s = .next t.nextCycle := by
  simp [step, hr, h, andThen]

/-! ### IDLE -/

/-- Settles O7: NOP's effect in IDLE is `done <- 0`. -/
theorem nopOnlyClearsDone : Obligations.NopOnlyClearsDone :=
  fun s klen op h => exec_of_ready (.nop klen op) s h

theorem exec_commandOf_of_ready (s : State) (k : KeyLen) (op : Op) (h : s.ready) :
    exec (commandOf k op) s = .next (s.accept k op) := by
  rw [exec_of_ready _ s h, idleEffect_commandOf]

theorem step_of_legal_ports (s : State) (k : KeyLen) (h : s.ready) (hr : s.ports.rst = false) (hs : s.ports.start = true)
    (hk : s.ports.klen = k.code) : step s = .next (s.accept k s.ports.op).nextCycle := by
  apply step_of_exec s _ hr
  rw [State.command, decode_issueWord_of_legal _ k hs hk, exec_commandOf_of_ready s k _ h]

/-- Settles O8: the command's effect in IDLE is acceptance, and a legal `klen` on the ports is the code of a key length. -/
theorem legalCommandsAreAccepted : Obligations.LegalCommandsAreAccepted := by
  refine ⟨exec_commandOf_of_ready, fun s h hr hs hk => ?_⟩
  obtain ⟨k, hk⟩ := exists_keyLen_of_legal _ hk
  rw [step_of_legal_ports s k h hr hs hk, hk]
  rfl

/-! ### While busy -/

theorem clockEdge_of_busy (f g : State → State) (s : State) (h : s.busy = true) : clockEdge f s = clockEdge g s := by
  have hidle := s.busy_iff.mp h
  unfold clockEdge
  cases hf : s.fsm with
  | idle => exact absurd hf hidle
  | keyexp | init | round | final | unused5 | unused6 | unused7 => rfl

/-- The same registers, with other port levels for this cycle and the ones after it. -/
def State.withHost (s : State) (l : List Ports) : State := { s with host := l }

@[simp] theorem State.withHost_fsm (s : State) (l : List Ports) : (s.withHost l).fsm = s.fsm := rfl
@[simp] theorem State.withHost_resetSeen (s : State) (l : List Ports) : (s.withHost l).resetSeen = s.resetSeen := rfl
@[simp] theorem State.withHost_rnd (s : State) (l : List Ports) : (s.withHost l).rnd = s.rnd := rfl

theorem keyexpEdge_withHost (s : State) (l : List Ports) : keyexpEdge (s.withHost l) = (keyexpEdge s).withHost l := by
  cases he : (keyExpand s.keyR s.klenR).rconErr with
  | false =>
    rw [keyexpEdge_of_not_rconErr s he, keyexpEdge_of_not_rconErr (s.withHost l) he]
    rfl
  | true =>
    rw [keyexpEdge_of_rconErr s he, keyexpEdge_of_rconErr (s.withHost l) he]
    rfl

theorem initEdge_withHost (s : State) (l : List Ports) : initEdge (s.withHost l) = (initEdge s).withHost l := by
  cases ho : s.opR <;> simp [initEdge, State.withHost, ho]

theorem roundEdgeWith_withHost (s : State) (j : Fin 15) (l : List Ports) :
    roundEdgeWith (s.withHost l) j = (roundEdgeWith s j).withHost l := by
  cases ho : s.opR <;> simp [roundEdgeWith, State.withHost, ho]

theorem finalEdge_withHost (s : State) (l : List Ports) : finalEdge (s.withHost l) = (finalEdge s).withHost l := rfl
theorem unusedEdge_withHost (s : State) (l : List Ports) : unusedEdge (s.withHost l) = (unusedEdge s).withHost l := rfl

theorem roundEdge_withHost (s : State) (l : List Ports) :
    roundEdge (s.withHost l) = andThen (roundEdge s) fun t => t.withHost l := by
  by_cases hlt : s.rnd.toNat < 15
  · simp [roundEdge, hlt, andThen, roundEdgeWith_withHost]
  · simp [roundEdge, hlt, andThen]

/-- The edge of a busy machine does not read the inputs: with other port levels it answers the same registers. -/
theorem clockEdge_withHost_of_busy (f : State → State) (s : State) (l : List Ports) (h : s.busy = true) :
    clockEdge f (s.withHost l) = andThen (clockEdge f s) fun t => t.withHost l := by
  have hidle := s.busy_iff.mp h
  cases hseen : s.resetSeen with
  | false => simp [hseen, andThen]
  | true =>
    cases hf : s.fsm with
    | idle => exact absurd hf hidle
    | keyexp => simp [hseen, hf, andThen, keyexpEdge_withHost]
    | init => simp [hseen, hf, andThen, initEdge_withHost]
    | round => simp [hseen, hf, roundEdge_withHost]
    | final => simp [hseen, hf, andThen, finalEdge_withHost]
    | unused5 | unused6 | unused7 => simp [hseen, hf, andThen, unusedEdge_withHost]

theorem andThen_andThen (o : Host.Outcome State Fault Refusal) (f g : State → State) :
    andThen (andThen o f) g = andThen o fun t => g (f t) := by
  cases o <;> rfl

/-- The step of a busy machine, whatever its host drives in this cycle, if it is no reset. -/
theorem step_withHost_of_busy (s : State) (p : Ports) (later : List Ports) (h : s.busy = true) (hp : p.rst = false) :
    step (s.withHost (p :: later)) = andThen (clockEdge id s) fun t => t.withHost later := by
  rw [step_of_not_rst (s.withHost (p :: later)) hp, clockEdge_withHost_of_busy _ s _ h, clockEdge_of_busy _ id s h,
    andThen_andThen]
  rfl

/-- Settles O10: the command counts in IDLE only, and no other state's edge reads the inputs. -/
theorem commandsWhileBusyAreLost : Obligations.CommandsWhileBusyAreLost := by
  refine ⟨fun s i j h => ?_, fun s p q later h hp hq => ?_⟩
  · rw [exec_eq_clockEdge, exec_eq_clockEdge, clockEdge_of_busy _ _ s h]
  · exact (step_withHost_of_busy s p later h hp).trans (step_withHost_of_busy s q later h hq).symm

/-! ### KEYEXP -/

/-- Settles O11, by whether aes_key_expand answers `rcon_err`. -/
theorem keyexpEdgeLoadsTheSchedule : Obligations.KeyexpEdgeLoadsTheSchedule := by
  intro s i hseen hf
  rw [exec_of_keyexp i s hseen hf]
  cases he : (keyExpand s.keyR s.klenR).rconErr with
  | false =>
    rw [keyexpEdge_of_not_rconErr s he]
    rfl
  | true =>
    rw [keyexpEdge_of_rconErr s he]
    rfl

/-! ### INIT -/

/-- The model subtracts in the four bits of `rnd`; for a legal key length nothing is cut off. -/
theorem ofNat_nrOf_sub_one (klen : Klen) (hk : klen ≠ 0b11#2) :
    BitVec.ofNat 4 (nrOf klen).val - 1#4 = BitVec.ofNat 4 ((nrOf klen).val - 1) := by
  obtain ⟨k, rfl⟩ := exists_keyLen_of_legal klen hk
  cases k <;> rfl

@[simp] theorem initEdge_fsm (s : State) : (initEdge s).fsm = .round := by
  unfold initEdge
  cases s.opR <;> rfl

theorem initEdge_of_encrypt (s : State) (ho : s.opR = .encrypt) :
    initEdge s = { s with st := addRoundKey s.sched s.st 0, rnd := 1#4, done := false, fsm := .round } := by
  simp only [initEdge, ho, State.setDone]

theorem initEdge_of_decrypt (s : State) (ho : s.opR = .decrypt) (hk : s.klenR ≠ 0b11#2) :
    initEdge s =
      { s with st := addRoundKey s.sched s.st (nrOf s.klenR), rnd := BitVec.ofNat 4 ((nrOf s.klenR).val - 1),
               done := false, fsm := .round } := by
  simp only [initEdge, ho, State.setDone, ofNat_nrOf_sub_one _ hk]

/-- Settles O12, one equation of the INIT edge for each operation. -/
theorem initEdgeAddsTheFirstRoundKey : Obligations.InitEdgeAddsTheFirstRoundKey := by
  intro s i hseen hf hk
  rw [exec_of_init i s hseen hf]
  refine ⟨fun ho => ?_, fun ho => ?_⟩
  · rw [initEdge_of_encrypt s ho]
  · rw [initEdge_of_decrypt s ho hk]

/-! ### ROUND -/

/-- The last full round of an encryption is round Nr-1 (rule R134). -/
theorem rnd_eq_ofNat_sub_one_iff (r : BitVec 4) (klen : Klen) (hk : klen ≠ 0b11#2) :
    r = BitVec.ofNat 4 (nrOf klen).val - 1#4 ↔ r.toNat = (nrOf klen).val - 1 := by
  have hlt : (nrOf klen).val - 1 < 2 ^ 4 := by omega
  rw [ofNat_nrOf_sub_one klen hk, ← BitVec.toNat_inj, BitVec.toNat_ofNat, Nat.mod_eq_of_lt hlt]

theorem roundEdgeWith_of_encrypt (s : State) (j : Fin 15) (ho : s.opR = .encrypt) (hk : s.klenR ≠ 0b11#2) :
    roundEdgeWith s j =
      { s with
        st := encRound s.sched s.st j
        fsm := if s.rnd.toNat = (nrOf s.klenR).val - 1 then .final else .round
        rnd := s.rnd + 1#4
        done := false } := by
  simp only [roundEdgeWith, ho, State.setDone, rnd_eq_ofNat_sub_one_iff _ _ hk]

theorem roundEdgeWith_of_decrypt (s : State) (j : Fin 15) (ho : s.opR = .decrypt) :
    roundEdgeWith s j =
      { s with
        st := decRound s.sched s.st j
        fsm := if s.rnd = 1#4 then .final else .round
        rnd := s.rnd - 1#4
        done := false } := by
  simp only [roundEdgeWith, ho, State.setDone]

theorem roundEdgeWith_fsm_cases (s : State) (j : Fin 15) :
    (roundEdgeWith s j).fsm = .final ∨ (roundEdgeWith s j).fsm = .round := by
  unfold roundEdgeWith
  cases s.opR <;> exact ite_eq_or_eq _ _ _

/-! ### FINAL -/

/-- Settles O15: the round key that the model takes, Nr or 0, is `RK(rnd)`. -/
theorem finalEdgeWritesTheResult : Obligations.FinalEdgeWritesTheResult := by
  intro s i j hseen hf _ _ hj
  rw [exec_of_final i s hseen hf]
  refine ⟨fun ho => ?_, fun ho => ?_⟩
  · have hnr : j = nrOf s.klenR := Fin.ext (by rw [hj, ho, finalIndex])
    simp only [finalEdge, finalValue, ho, encFinal, hnr, State.setDone, stateToBytes]
  · have hzero : j = 0 := Fin.ext (by rw [hj, ho, finalIndex]; rfl)
    simp only [finalEdge, finalValue, ho, decFinal, hzero, State.setDone, stateToBytes]

/-! ### Where each edge leads -/

theorem Edge.fsm_used {s t : State} (e : Edge s t) : t.fsm ≠ .unused5 ∧ t.fsm ≠ .unused6 ∧ t.fsm ≠ .unused7 := by
  cases e with
  | round hr hf hlt => rcases roundEdgeWith_fsm_cases s ⟨s.rnd.toNat, hlt⟩ with h | h <;> simp [h]
  | nop hr hf => simp [hf]
  | reset | illegal | accept | rconRange | keyexp | init | final | unused => simp

/-- Settles O16: the recovery is the edge of an unused encoding, and no case of `Edge` leads into one. -/
theorem unusedEncodingsRecoverAndAreNeverEntered : Obligations.UnusedEncodingsRecoverAndAreNeverEntered :=
  ⟨fun s i hseen hf => exec_of_unused i s hseen hf, fun _ _ h => (Edge.of_step h).fsm_used⟩

/-- Settles O22, by the cases of `Edge`. -/
theorem fsmFollowsTheTransitionTable : Obligations.FsmFollowsTheTransitionTable := by
  intro s t hlegal h
  cases Edge.of_step h with
  | reset hr => simp [hr]
  | nop hr hf hs => simp [hr, hf, hs]
  | illegal hr hf hs hk => simp [hr, hf, hk]
  | accept hr hf hs k hk => simp [hr, hf, hs, hk]
  | rconRange hr hf he => simp [hr, hf, he]
  | keyexp hr hf he => simp [hr, hf, he]
  | init hr hf => simp [hr, hf]
  | round hr hf hlt =>
    cases ho : s.opR with
    | encrypt => simp [hr, hf, roundEdgeWith_of_encrypt s _ ho (hlegal hf)]
    | decrypt => simp [hr, hf, roundEdgeWith_of_decrypt s _ ho]
  | final hr hf => simp [hr, hf]
  | unused hr hf => rcases hf with hf | hf | hf <;> simp [hr, hf]

end Sys2Proof.Machine
end

section
/-! The ROUND state as a whole: Nr-1 edges that apply the full rounds of the operation in their order (44_block_cipher.md, rules R134
and R135). The two operations are followed as one, by their round function, their order of rounds and their index after `n` rounds. -/

namespace Sys2Proof.Machine

/-! ### The rounds of an operation -/

/-- The full round of an operation: EncRound or DecRound (rules R134 and R135). -/
def fullRound : Op → Schedule → Block → Fin 15 → Block
  | .encrypt => encRound
  | .decrypt => decRound

/-- The round keys of an operation's full rounds, in the order in which they are applied (rules R120 and R121). -/
def roundOrder (op : Op) (nr : Fin 15) : List (Fin 15) :=
  match op with
  | .encrypt => fullRounds nr
  | .decrypt => (fullRounds nr).reverse

/-- The value of `rnd` after `n` full rounds (rules R134 and R135). -/
def indexAfter (op : Op) (nr : Fin 15) (n : Nat) : Nat :=
  match op with
  | .encrypt => n + 1
  | .decrypt => nr.val - 1 - n

theorem fullRounds_map_val (nr : Fin 15) : (fullRounds nr).map Fin.val = List.range' 1 (nr.val - 1) := by
  revert nr
  decide

@[simp] theorem fullRounds_length (nr : Fin 15) : (fullRounds nr).length = nr.val - 1 := by
  rw [← List.length_map Fin.val, fullRounds_map_val, List.length_range']

@[simp] theorem roundOrder_length (op : Op) (nr : Fin 15) : (roundOrder op nr).length = nr.val - 1 := by
  cases op <;> simp [roundOrder]

theorem fullRounds_getElem_val (nr : Fin 15) (n : Nat) (hn : n < (fullRounds nr).length) :
    (fullRounds nr)[n].val = n + 1 := by
  have h : ((fullRounds nr).map Fin.val)[n]'(by simpa using hn) = n + 1 := by
    simp [fullRounds_map_val, Nat.add_comm]
  simpa using h

/-- The next full round's key is the one that `rnd` names. -/
theorem roundOrder_getElem_val (op : Op) (nr : Fin 15) (n : Nat) (hn : n < (roundOrder op nr).length) :
    (roundOrder op nr)[n].val = indexAfter op nr n := by
  cases op with
  | encrypt => exact fullRounds_getElem_val nr n hn
  | decrypt =>
    rw [roundOrder_length] at hn
    simp only [roundOrder, List.getElem_reverse, fullRounds_getElem_val, fullRounds_length, indexAfter]
    omega

theorem roundEdgeWith_st (s : State) (j : Fin 15) : (roundEdgeWith s j).st = fullRound s.opR s.sched s.st j := by
  unfold roundEdgeWith
  cases s.opR <;> rfl

theorem roundEdgeWith_rnd_toNat (s : State) (j : Fin 15) (n : Nat) (hn : n < (nrOf s.klenR).val - 1)
    (hrnd : s.rnd.toNat = indexAfter s.opR (nrOf s.klenR) n) :
    (roundEdgeWith s j).rnd.toNat = indexAfter s.opR (nrOf s.klenR) (n + 1) := by
  have hnr := (nrOf s.klenR).isLt
  unfold roundEdgeWith
  cases ho : s.opR with
  | encrypt =>
    simp only [ho, indexAfter] at hrnd ⊢
    bv_omega
  | decrypt =>
    simp only [ho, indexAfter] at hrnd ⊢
    bv_omega

/-- ROUND ends with the last full round, for both operations. -/
theorem roundEdgeWith_fsm (s : State) (j : Fin 15) (n : Nat) (hk : s.klenR ≠ 0b11#2) (hn : n < (nrOf s.klenR).val - 1)
    (hrnd : s.rnd.toNat = indexAfter s.opR (nrOf s.klenR) n) :
    (roundEdgeWith s j).fsm = if n + 1 < (nrOf s.klenR).val - 1 then .round else .final := by
  cases ho : s.opR with
  | encrypt =>
    have hlast : s.rnd.toNat = (nrOf s.klenR).val - 1 ↔ ¬ n + 1 < (nrOf s.klenR).val - 1 := by
      simp only [ho, indexAfter] at hrnd
      omega
    rw [roundEdgeWith_of_encrypt s j ho hk]
    simp only [hlast, ite_not]
  | decrypt =>
    have hlast : s.rnd = 1#4 ↔ ¬ n + 1 < (nrOf s.klenR).val - 1 := by
      simp only [ho, indexAfter] at hrnd
      rw [← BitVec.toNat_inj]
      simp only [BitVec.toNat_ofNat]
      omega
    rw [roundEdgeWith_of_decrypt s j ho]
    simp only [hlast, ite_not]

/-! ### What a running command keeps -/

/-- `t` is `s` some `n` cycles later, as far as a running command leaves the registers alone: the latched key and selectors, the
outputs `blk_out`, `err` and `err_code`, and the host, which has driven `n` cycles more. -/
structure State.KeptFor (n : Nat) (s t : State) : Prop where
  keyR : t.keyR = s.keyR
  opR : t.opR = s.opR
  klenR : t.klenR = s.klenR
  blkOut : t.blkOut = s.blkOut
  err : t.err = s.err
  errCode : t.errCode = s.errCode
  resetSeen : t.resetSeen = s.resetSeen
  portsAt : ∀ m, t.portsAt m = s.portsAt (n + m)

theorem State.KeptFor.refl (s : State) : s.KeptFor 0 s :=
  ⟨rfl, rfl, rfl, rfl, rfl, rfl, rfl, fun m => by rw [Nat.zero_add]⟩

theorem State.KeptFor.trans {s t u : State} {m n : Nat} (hst : s.KeptFor m t) (htu : t.KeptFor n u) : s.KeptFor (m + n) u where
  keyR := htu.keyR.trans hst.keyR
  opR := htu.opR.trans hst.opR
  klenR := htu.klenR.trans hst.klenR
  blkOut := htu.blkOut.trans hst.blkOut
  err := htu.err.trans hst.err
  errCode := htu.errCode.trans hst.errCode
  resetSeen := htu.resetSeen.trans hst.resetSeen
  portsAt k := by rw [htu.portsAt, hst.portsAt, Nat.add_assoc]

theorem State.KeptFor.ports {s t : State} {n : Nat} (h : s.KeptFor n t) : t.ports = s.portsAt n := by
  rw [State.ports_eq_portsAt_zero, h.portsAt, Nat.add_zero]

theorem State.portsAt_congr {s t : State} (h : t.host = s.host) (n : Nat) : t.portsAt n = s.portsAt n := by
  rw [State.portsAt, State.portsAt, h]

theorem roundEdgeWith_keptFor (s : State) (j : Fin 15) : s.KeptFor 1 (roundEdgeWith s j).nextCycle := by
  obtain ⟨hkey, hop, hklen, -, hblk, herr, hcode, hseen, hhost⟩ := roundEdgeWith_keeps s j
  refine ⟨hkey, hop, hklen, hblk, herr, hcode, hseen, fun m => ?_⟩
  rw [State.nextCycle_portsAt, State.portsAt_congr hhost, Nat.add_comm]

/-! ### The full rounds one after another -/

theorem steps_one (s t : State) (h : step s = .next t) : steps 1 s = .next t := steps_succ 0 s t h

/-- `s` is at the start of ROUND: no full round of its command has been applied. -/
structure State.AtFirstRound (s : State) : Prop where
  afterReset : s.resetSeen = true
  inRound : s.fsm = .round
  klenLegal : s.klenR ≠ 0b11#2
  index : s.rnd.toNat = indexAfter s.opR (nrOf s.klenR) 0

/-- `t` is the machine `n` edges after the start `s` of ROUND, when `n` full rounds have been applied. -/
structure State.AfterRounds (n : Nat) (s t : State) : Prop where
  kept : s.KeptFor n t
  fsm : t.fsm = if n < (nrOf s.klenR).val - 1 then .round else .final
  rnd : t.rnd.toNat = indexAfter s.opR (nrOf s.klenR) n
  st : t.st = ((roundOrder s.opR (nrOf s.klenR)).take n).foldl (fullRound s.opR s.sched) s.st
  sched : t.sched = s.sched
  done : s.done = false → t.done = false

theorem two_le_nrOf (klen : Klen) (hk : klen ≠ 0b11#2) : 2 ≤ (nrOf klen).val := by
  obtain ⟨k, rfl⟩ := exists_keyLen_of_legal klen hk
  cases k <;> decide

theorem State.AtFirstRound.afterRounds_zero {s : State} (hs : s.AtFirstRound) : s.AfterRounds 0 s where
  kept := .refl s
  fsm := by
    have hnr := two_le_nrOf _ hs.klenLegal
    rw [hs.inRound, if_pos (by omega)]
  rnd := hs.index
  st := rfl
  sched := rfl
  done := id

/-- One more full round. -/
theorem State.AfterRounds.exists_step {s t : State} {n : Nat} (hs : s.AtFirstRound) (h : s.AfterRounds n t)
    (hn : n < (nrOf s.klenR).val - 1) (hr : (s.portsAt n).rst = false) :
    ∃ u, step t = .next u ∧ s.AfterRounds (n + 1) u := by
  obtain ⟨hkept, hfsm, hrnd, hst, hsched, -⟩ := h
  have hlen : n < (roundOrder s.opR (nrOf s.klenR)).length := by rwa [roundOrder_length]
  have hj := roundOrder_getElem_val _ _ n hlen
  generalize hkey : (roundOrder s.opR (nrOf s.klenR))[n] = j at hj
  have hround : t.fsm = .round := by rw [hfsm, if_pos hn]
  have hexec := exec_of_round t.command t j (hkept.resetSeen.trans hs.afterReset) hround (hrnd.trans hj.symm)
  have hklen : t.klenR ≠ 0b11#2 := hkept.klenR ▸ hs.klenLegal
  rw [← hkept.opR, ← hkept.klenR] at hrnd
  rw [← hkept.klenR] at hn
  refine ⟨_, step_of_exec t _ (hkept.ports ▸ hr) hexec, ?_⟩
  exact {
    kept := hkept.trans (roundEdgeWith_keptFor t j)
    fsm := by rw [← hkept.klenR, State.nextCycle_fsm, roundEdgeWith_fsm t j n hklen hn hrnd]
    rnd := by rw [← hkept.opR, ← hkept.klenR, State.nextCycle_rnd, roundEdgeWith_rnd_toNat t j n hn hrnd]
    st := by
      rw [State.nextCycle_st, roundEdgeWith_st, hkept.opR, hsched, hst, List.take_succ_eq_append_getElem hlen, hkey,
        List.foldl_concat]
    sched := by
      obtain ⟨-, -, -, hheld, -⟩ := roundEdgeWith_keeps t j
      exact hheld.trans hsched
    done := fun _ => roundEdgeWith_done t j }

/-- The whole of ROUND, up to the edge into FINAL. -/
theorem State.AtFirstRound.exists_steps {s : State} (hs : s.AtFirstRound) (n : Nat) (hn : n ≤ (nrOf s.klenR).val - 1)
    (hr : s.noReset n) : ∃ t, steps n s = .next t ∧ s.AfterRounds n t := by
  induction n with
  | zero => exact ⟨s, rfl, hs.afterRounds_zero⟩
  | succ n ih =>
    obtain ⟨t, ht, hrounds⟩ := ih (by omega) fun k hk => hr k (by omega)
    obtain ⟨u, hu, hrounds'⟩ := hrounds.exists_step hs (by omega) (hr n (by omega))
    exact ⟨u, by rw [steps_add n 1 s t ht, steps_one t u hu], hrounds'⟩

theorem State.AfterRounds.fsm_of_lt {s t : State} {n : Nat} (h : s.AfterRounds n t) (hn : n < (nrOf s.klenR).val - 1) :
    t.fsm = .round := by
  rw [h.fsm, if_pos hn]

theorem State.AfterRounds.fsm_of_last {s t : State} (h : s.AfterRounds ((nrOf s.klenR).val - 1) t) : t.fsm = .final := by
  rw [h.fsm, if_neg (by omega)]

/-- After the last full round, `st` has been through all of them. -/
theorem State.AfterRounds.st_of_last {s t : State} (h : s.AfterRounds ((nrOf s.klenR).val - 1) t) :
    t.st = (roundOrder s.opR (nrOf s.klenR)).foldl (fullRound s.opR s.sched) s.st := by
  rw [h.st, List.take_of_length_le (by rw [roundOrder_length])]

/-! ### The two operations -/

/-- Settles O13: the encryption case of the ROUND edge, and of the rounds one after another. -/
theorem roundStateEncrypts : Obligations.RoundStateEncrypts := by
  refine ⟨fun s i j hseen hf ho hk hj => ?_, fun s hseen hf ho hk hrnd hr => ?_⟩
  · rw [exec_of_round i s j hseen hf hj, roundEdgeWith_of_encrypt s j ho hk]
  · have hs : s.AtFirstRound := ⟨hseen, hf, hk, by rw [hrnd, ho]; rfl⟩
    have hnr := two_le_nrOf _ hk
    refine ⟨fun n hn => ?_, ?_⟩
    · obtain ⟨t, ht, h⟩ := hs.exists_steps n hn.le fun k hk => hr k (by omega)
      exact ⟨t, ht, h.fsm_of_lt hn, by rw [h.rnd, ho]; rfl⟩
    · obtain ⟨t, ht, h⟩ := hs.exists_steps _ le_rfl hr
      refine ⟨t, ht, h.fsm_of_last, ?_, by rw [h.st_of_last, ho]; rfl⟩
      rw [h.rnd, ho, indexAfter]
      omega

/-- Settles O14: the decryption case of the ROUND edge, and of the rounds one after another. -/
theorem roundStateDecrypts : Obligations.RoundStateDecrypts := by
  refine ⟨fun s i j hseen hf ho hj => ?_, fun s hseen hf ho hk hrnd hr => ?_⟩
  · rw [exec_of_round i s j hseen hf hj, roundEdgeWith_of_decrypt s j ho]
  · have hs : s.AtFirstRound := ⟨hseen, hf, hk, by rw [hrnd, ho]; rfl⟩
    refine ⟨fun n hn => ?_, ?_⟩
    · obtain ⟨t, ht, h⟩ := hs.exists_steps n hn.le fun k hk => hr k (by omega)
      exact ⟨t, ht, h.fsm_of_lt hn, by rw [h.rnd, ho]; rfl⟩
    · obtain ⟨t, ht, h⟩ := hs.exists_steps _ le_rfl hr
      refine ⟨t, ht, h.fsm_of_last, BitVec.eq_of_toNat_eq ?_, by rw [h.st_of_last, ho]; rfl⟩
      rw [h.rnd, ho, indexAfter, Nat.sub_self]
      rfl

end Sys2Proof.Machine
end

section
/-! The key expansion of a legal key length never asks for a round constant outside the table, so it always answers words, and these
depend on the key words of its own length alone (43_key_expand.md, rules R105 and R108). -/

namespace Sys2Proof.Machine

theorem exists_rcon (j : Nat) (hlo : 1 ≤ j) (hhi : j ≤ 10) : ∃ rc, rcon j = some rc := by
  have htable : ∀ i < 11, 1 ≤ i → (rcon i).isSome = true := by decide
  exact Option.isSome_iff_exists.mp (htable j (by omega) hlo)

theorem exists_nextWord (nk i : Nat) (prev back : Word) (h : i % nk = 0 → 1 ≤ i / nk ∧ i / nk ≤ 10) :
    ∃ w, nextWord nk i prev back = some w := by
  unfold nextWord
  split
  · rename_i hmod
    obtain ⟨hlo, hhi⟩ := h hmod
    obtain ⟨rc, hrc⟩ := exists_rcon _ hlo hhi
    exact ⟨_, by rw [hrc]; rfl⟩
  · split <;> exact ⟨_, rfl⟩

theorem exists_expandWords (nk n : Nat) (ws : List Word)
    (h : ∀ i, ws.length ≤ i → i < ws.length + n → i % nk = 0 → 1 ≤ i / nk ∧ i / nk ≤ 10) :
    ∃ vs, expandWords nk n ws = some vs := by
  induction n generalizing ws with
  | zero => exact ⟨ws, rfl⟩
  | succ n ih =>
    obtain ⟨w, hw⟩ := exists_nextWord nk ws.length (ws.getD (ws.length - 1) 0#32) (ws.getD (ws.length - nk) 0#32)
      (h _ le_rfl (by omega))
    rw [expandWords, hw]
    refine ih (ws ++ [w]) fun i hlo hhi => ?_
    rw [List.length_append, List.length_singleton] at hlo hhi
    exact h i (by omega) (by omega)

/-- The round constants asked for are those of rule R108: the schedule is at most 11 times as long as the key. -/
theorem rcon_index_in_table (k : KeyLen) (i : Nat) (hlo : nkOf k.code ≤ i) (hhi : i < scheduleLength k.code) :
    1 ≤ i / nkOf k.code ∧ i / nkOf k.code ≤ 10 := by
  have hnk : 0 < nkOf k.code := by cases k <;> decide
  have hlen : scheduleLength k.code ≤ nkOf k.code * 11 := by cases k <;> decide
  exact ⟨Nat.div_pos hlo hnk, Nat.le_of_lt_succ (Nat.div_lt_of_lt_mul (hhi.trans_le hlen))⟩

theorem exists_scheduleWords (key : KeyBus) (k : KeyLen) : ∃ ws, scheduleWords key k.code = some ws := by
  have hlen := nkOf_le_scheduleLength k.code
  refine exists_expandWords _ _ _ fun i hlo hhi _ => ?_
  rw [seedWords_length] at hlo hhi
  exact rcon_index_in_table k i hlo (by omega)

theorem keyExpand_of_scheduleWords (key : KeyBus) (k : KeyLen) (ws : List Word) (h : scheduleWords key k.code = some ws) :
    keyExpand key k.code =
      { wOut := packSchedule ws, nr := BitVec.ofNat 4 (nrOf k.code).val, nk := BitVec.ofNat 4 (nkOf k.code),
        kerr := false, rconErr := false } := by
  rw [keyExpand, if_neg (keyLen_code_ne_illegal k), h]

@[simp] theorem keyExpand_rconErr (key : KeyBus) (klen : Klen) : (keyExpand key klen).rconErr = false := by
  by_cases hk : klen = 0b11#2
  · rw [hk, keyExpand_illegal]
  · obtain ⟨k, rfl⟩ := exists_keyLen_of_legal klen hk
    obtain ⟨ws, hws⟩ := exists_scheduleWords key k
    rw [keyExpand_of_scheduleWords key k ws hws]

/-- Rule R45: only the first Nk key words are read. -/
theorem keyExpand_congr (key key' : KeyBus) (k : KeyLen) (h : ∀ i < nkOf k.code, keyWord key i = keyWord key' i) :
    keyExpand key k.code = keyExpand key' k.code := by
  have hseed : seedWords key k.code = seedWords key' k.code :=
    List.map_congr_left fun i hi => h i (List.mem_range.mp hi)
  obtain ⟨ws, hws⟩ := exists_scheduleWords key k
  have hws' : scheduleWords key' k.code = some ws := by rw [← hws, scheduleWords, scheduleWords, hseed]
  rw [keyExpand_of_scheduleWords key k ws hws, keyExpand_of_scheduleWords key' k ws hws']

theorem aesEnc_congr (b : Block) (key key' : KeyBus) (k : KeyLen) (h : ∀ i < nkOf k.code, keyWord key i = keyWord key' i) :
    aesEnc b key k = aesEnc b key' k := by
  rw [aesEnc, aesEnc, keyExpand_congr key key' k h]

/-- Key word `i` read from the key alone, the `32·m` bits at the top of the bus (rules R45 and R48). -/
theorem keyWord_eq_of_key (key : KeyBus) (m i : Nat) (hm : m ≤ 8) (hi : i < m) :
    keyWord key i = (key.extractLsb' (256 - 32 * m) (32 * m)).extractLsb' (32 * (m - 1 - i)) 32 := by
  apply BitVec.eq_of_getLsbD_eq
  intro b hb
  have hpos : 256 - 32 * m + (32 * (m - 1 - i) + b) = 224 - 32 * i + b := by omega
  have hin : 32 * (m - 1 - i) + b < 32 * m := by omega
  simp [keyWord, hb, hpos, hin]

theorem keyWord_congr_of_key (key key' : KeyBus) (m : Nat) (hm : m ≤ 8)
    (h : key.extractLsb' (256 - 32 * m) (32 * m) = key'.extractLsb' (256 - 32 * m) (32 * m)) (i : Nat) (hi : i < m) :
    keyWord key i = keyWord key' i := by
  rw [keyWord_eq_of_key key m i hm hi, keyWord_eq_of_key key' m i hm hi, h]

end Sys2Proof.Machine
end

section
/-! Whole commands (44_block_cipher.md, rules R122 to R127): from acceptance through KEYEXP, INIT, the Nr-1 full rounds and FINAL to
the result on `blk_out`, for both operations and every key length. -/

namespace Sys2Proof.Machine

/-! ### From acceptance to ROUND -/

/-- The round key that INIT adds (rule R133). -/
def firstKey (op : Op) (nr : Fin 15) : Fin 15 :=
  match op with
  | .encrypt => 0
  | .decrypt => nr

theorem initEdge_st (s : State) : (initEdge s).st = addRoundKey s.sched s.st (firstKey s.opR (nrOf s.klenR)) := by
  unfold initEdge
  cases s.opR <;> rfl

theorem initEdge_rnd_toNat (s : State) (hk : s.klenR ≠ 0b11#2) :
    (initEdge s).rnd.toNat = indexAfter s.opR (nrOf s.klenR) 0 := by
  cases ho : s.opR with
  | encrypt =>
    rw [initEdge_of_encrypt s ho]
    rfl
  | decrypt =>
    have hlt : (nrOf s.klenR).val - 1 < 2 ^ 4 := by omega
    rw [initEdge_of_decrypt s ho hk, indexAfter, Nat.sub_zero]
    exact Nat.mod_eq_of_lt hlt

theorem initEdge_keptFor (s : State) : s.KeptFor 1 (initEdge s).nextCycle := by
  obtain ⟨hkey, hop, hklen, -, hblk, herr, hcode, hseen, hhost⟩ := initEdge_keeps s
  refine ⟨hkey, hop, hklen, hblk, herr, hcode, hseen, fun m => ?_⟩
  rw [State.nextCycle_portsAt, State.portsAt_congr hhost, Nat.add_comm]

/-- `s` is in KEYEXP with a command just accepted. -/
structure State.JustAccepted (s : State) : Prop where
  afterReset : s.resetSeen = true
  inKeyexp : s.fsm = .keyexp
  klenLegal : s.klenR ≠ 0b11#2
  notDone : s.done = false

/-- The schedule of the command's own key (rule R132). -/
def State.ownSchedule (s : State) : Schedule := scheduleOf (keyExpand s.keyR s.klenR).wOut

/-- The KEYEXP edge loads the schedule, as the key expansion never answers `rcon_err`. -/
theorem State.JustAccepted.exists_step {s : State} (hs : s.JustAccepted) (hr : s.noReset 1) :
    ∃ t, step s = .next t ∧ s.KeptFor 1 t ∧ t.fsm = .init ∧ t.st = s.st ∧ t.sched = s.ownSchedule ∧ t.done = false := by
  have hexec := exec_of_keyexp s.command s hs.afterReset hs.inKeyexp
  rw [keyexpEdge_of_not_rconErr s (keyExpand_rconErr _ _)] at hexec
  refine ⟨_, step_of_exec s _ ?_ hexec, ⟨rfl, rfl, rfl, rfl, rfl, rfl, rfl, fun m => ?_⟩, rfl, rfl, rfl, rfl⟩
  · rw [State.ports_eq_portsAt_zero]
    exact hr 0 (by omega)
  · rw [State.nextCycle_portsAt, Nat.add_comm]
    rfl

/-- `t` is where ROUND begins, two edges after the acceptance. -/
structure State.EntersRound (s t : State) : Prop where
  kept : s.KeptFor 2 t
  atFirstRound : t.AtFirstRound
  st : t.st = addRoundKey s.ownSchedule s.st (firstKey s.opR (nrOf s.klenR))
  sched : t.sched = s.ownSchedule
  done : t.done = false

theorem State.JustAccepted.exists_enters_round {s : State} (hs : s.JustAccepted) (hr : s.noReset 2) :
    ∃ t, steps 2 s = .next t ∧ s.EntersRound t := by
  obtain ⟨t, ht, hkept, hf, hst, hsched, -⟩ := hs.exists_step fun k hk => hr k (by omega)
  have hseen : t.resetSeen = true := hkept.resetSeen.trans hs.afterReset
  have hklen : t.klenR ≠ 0b11#2 := hkept.klenR ▸ hs.klenLegal
  have hu := step_of_exec t _ (hkept.ports ▸ hr 1 (by omega)) (exec_of_init t.command t hseen hf)
  have hinit := initEdge_keptFor t
  refine ⟨_, by rw [steps_succ 1 s t ht, steps_one t _ hu], ?_⟩
  exact {
    kept := hkept.trans hinit
    atFirstRound := {
      afterReset := hinit.resetSeen.trans hseen
      inRound := initEdge_fsm t
      klenLegal := hinit.klenR ▸ hklen
      index := by
        rw [hinit.opR, hinit.klenR]
        exact initEdge_rnd_toNat t hklen }
    st := by rw [State.nextCycle_st, initEdge_st, hsched, hst, hkept.opR, hkept.klenR]
    sched := by
      obtain ⟨-, -, -, hheld, -⟩ := initEdge_keeps t
      exact hheld.trans hsched
    done := initEdge_done t }

/-! ### The busy cycles -/

/-- The cycles of ROUND and FINAL: `n` full rounds take the command `n` edges beyond the beginning of ROUND. -/
theorem State.JustAccepted.exists_after_rounds {s : State} (hs : s.JustAccepted) (n : Nat)
    (hn : n ≤ (nrOf s.klenR).val - 1) (hr : s.noReset (2 + n)) :
    ∃ t u, steps (2 + n) s = .next u ∧ s.EntersRound t ∧ t.AfterRounds n u := by
  obtain ⟨t, ht, hround⟩ := hs.exists_enters_round fun k hk => hr k (by omega)
  have hrt : t.noReset n := fun k hk => by rw [hround.kept.portsAt]; exact hr (2 + k) (by omega)
  obtain ⟨u, hu, hrounds⟩ := hround.atFirstRound.exists_steps n (by rwa [hround.kept.klenR]) hrt
  exact ⟨t, u, by rw [steps_add 2 n s t ht, hu], hround, hrounds⟩

theorem State.AfterRounds.busy {s t : State} {n : Nat} (h : s.AfterRounds n t) : t.busy = true := by
  rw [State.busy_iff, h.fsm]
  split <;> decide

/-- Nr+2 busy cycles after the acceptance: KEYEXP, INIT, Nr-1 cycles of ROUND and FINAL (rule R142). -/
theorem State.JustAccepted.busy_until_final {s : State} (hs : s.JustAccepted) (n : Nat) (hn : n < (nrOf s.klenR).val + 2)
    (hr : s.noReset n) :
    ∃ u, steps n s = .next u ∧ u.busy = true ∧ u.done = false ∧ u.blkOut = s.blkOut := by
  match n, hn, hr with
  | 0, _, _ => exact ⟨s, rfl, by rw [State.busy_iff, hs.inKeyexp]; decide, hs.notDone, rfl⟩
  | 1, _, hr =>
    obtain ⟨t, ht, hkept, hf, -, -, hdone⟩ := hs.exists_step hr
    exact ⟨t, steps_one s t ht, by rw [State.busy_iff, hf]; decide, hdone, hkept.blkOut⟩
  | n + 2, hn, hr =>
    have hnr := two_le_nrOf _ hs.klenLegal
    rw [Nat.add_comm] at hr ⊢
    obtain ⟨t, u, hu, hround, hrounds⟩ := hs.exists_after_rounds n (by omega) hr
    exact ⟨u, hu, hrounds.busy, hrounds.done hround.done, hrounds.kept.blkOut.trans hround.kept.blkOut⟩

/-! ### The result -/

/-- The cipher functions of rules R120 and R121 are one: the first round key, the full rounds in the operation's order, and the
value of the FINAL edge. -/
theorem finalValue_eq_cipher (s : State) (blk : Block) (key : KeyBus) (k : KeyLen) (hk : s.klenR = k.code)
    (hsched : s.sched = scheduleOf (keyExpand key k.code).wOut)
    (hst : s.st = (roundOrder s.opR (roundsOf k)).foldl (fullRound s.opR s.sched)
      (addRoundKey s.sched blk (firstKey s.opR (roundsOf k)))) :
    finalValue s = cipher s.opR blk key k := by
  unfold finalValue
  rw [hst, hsched, hk]
  cases s.opR <;> rfl

/-- The edge Nr+2 after the acceptance writes the cipher function of the latched operands to `blk_out`. -/
theorem State.JustAccepted.exists_result {s : State} (hs : s.JustAccepted) (k : KeyLen) (hk : s.klenR = k.code)
    (hr : s.noReset ((roundsOf k).val + 2)) :
    ∃ u, steps ((roundsOf k).val + 2) s = .next u ∧ u.blkOut = cipher s.opR s.st s.keyR k ∧ u.fsm = .idle ∧
      u.done = true ∧ u.err = s.err ∧ u.errCode = s.errCode := by
  have hnrOf : nrOf s.klenR = roundsOf k := by rw [hk]; rfl
  have hnr := two_le_nrOf _ hs.klenLegal
  rw [hnrOf] at hnr
  obtain ⟨t, u, hu, hround, hrounds⟩ := hs.exists_after_rounds ((roundsOf k).val - 1) (by rw [hnrOf])
    fun m hm => hr m (by omega)
  have hnrt : nrOf t.klenR = roundsOf k := by rw [hround.kept.klenR, hnrOf]
  rw [← hnrt] at hrounds
  have hkept := hround.kept.trans hrounds.kept
  have hrst : u.ports.rst = false := by
    rw [hkept.ports]
    exact hr _ (by rw [hnrt]; omega)
  have hfinal := step_of_exec u _ hrst
    (exec_of_final u.command u (hkept.resetSeen.trans hs.afterReset) hrounds.fsm_of_last)
  have hvalue : finalValue u = cipher s.opR s.st s.keyR k := by
    rw [← hkept.opR]
    apply finalValue_eq_cipher u _ _ k (hkept.klenR.trans hk)
    · rw [hrounds.sched, hround.sched, State.ownSchedule, hk]
    · rw [hrounds.st_of_last, hround.st, hnrt, hrounds.sched, hround.sched, hround.kept.opR, hkept.opR, hnrOf]
  obtain ⟨-, -, -, -, -, herr, hcode, -, -⟩ := finalEdge_keeps u
  refine ⟨(finalEdge u).nextCycle, ?_, hvalue, rfl, rfl, herr.trans hkept.err, hcode.trans hkept.errCode⟩
  have hlen : (roundsOf k).val + 2 = 2 + ((roundsOf k).val - 1) + 1 := by omega
  rw [hlen, steps_add _ 1 s u hu, steps_one u _ hfinal]

/-! ### The rules of the six legal commands -/

theorem State.ready.accept_justAccepted {s : State} (h : s.ready) (k : KeyLen) (op : Op) :
    (s.accept k op).nextCycle.JustAccepted := by
  obtain ⟨hseen, -⟩ := h
  exact ⟨hseen, rfl, keyLen_code_ne_illegal k, rfl⟩

/-- The `done` cycle: an edge in IDLE that rejects no command lets `done` fall (rule R28). -/
theorem done_falls_in_idle (u v : State) (hf : u.fsm = .idle) (hstep : step u = .next v) (hrej : u.rejects = false) :
    v.done = false := by
  rw [← Bool.not_eq_true, (Edge.of_step hstep).done_iff]
  simp [hf, hrej]

/-- Every legal command follows its rule, with Nr+2 edges from acceptance to result. -/
theorem commandRule (k : KeyLen) (op : Op) :
    CommandRule (commandOf k op) (encode (commandOf k op)) k op ((roundsOf k).val + 2) := by
  refine ⟨rfl, by cases k <;> cases op <;> decide, fun s h hr => ?_⟩
  have ha := h.accept_justAccepted k op
  have hra : ∀ n ≤ (roundsOf k).val + 2, (s.accept k op).nextCycle.noReset n := fun n hn m hm => by
    rw [State.nextCycle_portsAt]
    exact hr (m + 1) (by omega) (by omega)
  refine ⟨s.accept k op, exec_commandOf_of_ready s k op h, rfl, rfl, fun n hn => ?_, ?_⟩
  · exact ha.busy_until_final n hn (hra n hn.le)
  · obtain ⟨u, hu, hblk, hf, hdone, herr, hcode⟩ := ha.exists_result k rfl (hra _ le_rfl)
    exact ⟨u, hu, hblk, u.not_busy_iff.mpr hf, hdone, herr, hcode, fun v => done_falls_in_idle u v hf⟩

/-- Settles O30: the three encryptions of `commandRule`, the key words that the key expansion reads, and the values computed. -/
theorem encryptCommandsFollowTheirRules : Obligations.EncryptCommandsFollowTheirRules := by
  refine ⟨commandRule .aes128 .encrypt, commandRule .aes192 .encrypt, commandRule .aes256 .encrypt,
    fun b key key' h => ?_, fun b key key' h => ?_, ?_⟩
  · exact aesEnc_congr b key key' .aes128 (keyWord_congr_of_key key key' 4 (by decide) h)
  · exact aesEnc_congr b key key' .aes192 (keyWord_congr_of_key key key' 6 (by decide) h)
  · decide +kernel

end Sys2Proof.Machine
end

section
/-! The exception in IDLE (60_exceptions.md, rule R152): BAD is rejected with KLEN_INVALID. -/

namespace Sys2Proof.Machine

/-- BAD's effect in IDLE, for either operation, is the rejection with KLEN_INVALID. -/
theorem exec_bad_of_ready (s : State) (op : Op) (h : s.ready) : exec (.bad op) s = .next (s.reject .klenInvalid) :=
  exec_of_ready (.bad op) s h

theorem step_of_illegal_ports (s : State) (h : s.ready) (hr : s.ports.rst = false) (hs : s.ports.start = true)
    (hk : s.ports.klen = 0b11#2) : step s = .next (s.reject .klenInvalid).nextCycle := by
  apply step_of_exec s _ hr
  rw [State.command, decode_issueWord_of_illegal _ hs hk, exec_bad_of_ready s _ h]

/-- A rejection writes `fsm <- IDLE`, so in IDLE it leaves `fsm` as it is and changes no register but `err`, `err_code` and
`done` (rule R157). -/
theorem State.reject_of_idle (s : State) (c : ErrCode) (hf : s.fsm = .idle) :
    s.reject c = { s with err := true, errCode := c.bits, done := true } := by
  rw [State.reject, ← hf]
  rfl

/-- Settles O9: BAD's edge is the rejection with KLEN_INVALID, and the machine is in IDLE already. -/
theorem illegalKeyLengthIsRejected : Obligations.IllegalKeyLengthIsRejected := by
  refine ⟨fun s op h => ?_, fun s h hr hs hk => ?_⟩
  · have ⟨_, hf⟩ := h
    rw [exec_bad_of_ready s op h, s.reject_of_idle _ hf, ErrCode.bits]
  · have ⟨_, hf⟩ := h
    rw [step_of_illegal_ports s h hr hs hk, s.reject_of_idle _ hf]
    rfl

end Sys2Proof.Machine
end

section
/-! Reset against a running command (70_reset_and_hazards.md, rule R171). A reset edge leaves the machine ready with `done = 0`, and
from there quiet cycles, with neither reset nor command, change no register. -/

namespace Sys2Proof.Machine

theorem State.resetEdge_ready (s : State) : s.resetEdge.ready := ⟨rfl, rfl⟩

/-- In the next `n` cycles the host drives neither a reset nor a command. -/
def State.quietFor (s : State) (n : Nat) : Prop := ∀ k < n, (s.portsAt k).rst = false ∧ (s.portsAt k).start = false

theorem State.quietFor.nextCycle {s : State} {n : Nat} (h : s.quietFor (n + 1)) : s.nextCycle.quietFor n := fun k hk => by
  rw [State.nextCycle_portsAt]
  exact h (k + 1) (by omega)

/-- With `start = 0` the ports present a NOP, which clears `done` and nothing else (rule R128). -/
theorem step_of_quiet_ports (s : State) (h : s.ready) (hr : s.ports.rst = false) (hs : s.ports.start = false) :
    step s = .next (s.setDone false).nextCycle := by
  apply step_of_exec s _ hr
  rw [State.command, decode_issueWord_of_not_start _ hs, exec_of_ready _ s h, idleEffect]

theorem State.setDone_of_done {s : State} {b : Bool} (h : s.done = b) : s.setDone b = s := by
  rw [State.setDone, ← h]

/-- A quiet cycle of a ready machine with `done = 0` uses up the port levels of that cycle and changes no register. -/
theorem State.quietFor.step_eq {s : State} {n : Nat} (hq : s.quietFor (n + 1)) (h : s.ready) (hd : s.done = false) :
    step s = .next s.nextCycle := by
  obtain ⟨hr, hs⟩ := hq 0 n.succ_pos
  rw [← State.ports_eq_portsAt_zero] at hr hs
  rw [step_of_quiet_ports s h hr hs, State.setDone_of_done hd]

theorem State.quietFor.steps_eq {s : State} {n : Nat} (hq : s.quietFor n) (h : s.ready) (hd : s.done = false) :
    steps n s = .next (s.withHost (s.host.drop n)) := by
  induction n generalizing s with
  | zero => rfl
  | succ n ih =>
    rw [steps_succ n s _ (hq.step_eq h hd), ih hq.nextCycle h hd, State.nextCycle_host, List.drop_tail]
    rfl

/-- After a reset edge and `n` quiet cycles every register is as the reset edge left it, whatever the machine was doing before. -/
theorem steps_of_reset_then_quiet (s : State) (n : Nat) (hr : s.ports.rst = true) (hq : s.nextCycle.quietFor n) :
    steps (n + 1) s = .next (s.resetEdge.withHost (s.host.drop (n + 1))) := by
  have hquiet : s.resetEdge.nextCycle.quietFor n := hq
  rw [steps_succ n s _ (step_of_rst s hr), hquiet.steps_eq s.resetEdge_ready rfl, State.nextCycle_host, List.drop_tail]
  rfl

/-- Settles O18: the registers that the reset edge clears are still clear after the quiet cycles. -/
theorem resetAbortsARunningCommand : Obligations.ResetAbortsARunningCommand := by
  intro s n _ hr hq
  have hquiet : s.nextCycle.quietFor n := fun k hk => by
    rw [State.nextCycle_portsAt]
    exact hq (k + 1) (by omega) hk
  exact ⟨_, steps_of_reset_then_quiet s n hr hquiet, rfl, rfl, rfl, rfl, rfl⟩

end Sys2Proof.Machine
end

section
/-! The invariant of the machine after a reset (10_state.md, section 2): how every edge keeps it, and why no edge of a machine
that meets it stops. The clauses on which progress rests, about the latched `klen_r` and the round index, are followed first. -/

namespace Sys2Proof.Machine

/-! ### The round index -/

/-- The indices of the full rounds are those that `rnd` runs through in ROUND (rules R134 and R135). -/
theorem exists_eq_indexAfter (op : Op) (nr : Fin 15) (r : Nat) (hlo : 1 ≤ r) (hhi : r < nr.val) :
    ∃ n < nr.val - 1, r = indexAfter op nr n := by
  cases op with
  | encrypt => exact ⟨r - 1, by omega, by rw [indexAfter]; omega⟩
  | decrypt => exact ⟨nr.val - 1 - r, by omega, by rw [indexAfter]; omega⟩

theorem indexAfter_mem_rounds (op : Op) (nr : Fin 15) (n : Nat) (hn : n < nr.val - 1) :
    1 ≤ indexAfter op nr n ∧ indexAfter op nr n < nr.val := by
  cases op <;> rw [indexAfter] <;> omega

theorem indexAfter_last (op : Op) (klen : Klen) (hk : klen ≠ 0b11#2) :
    indexAfter op (nrOf klen) ((nrOf klen).val - 1) = finalIndex op klen := by
  have hnr := two_le_nrOf klen hk
  cases op <;> rw [indexAfter, finalIndex] <;> omega

/-! ### Progress -/

/-- What a machine needs in order to go on for ever: a reset seen, a legal `klen_r` while it is busy, and the round index in the
range of its state. -/
structure State.OnTrack (s : State) : Prop where
  afterReset : s.resetSeen = true
  klenLegal : s.busy = true → s.klenR ≠ 0b11#2
  roundIndex : s.fsm = .round → 1 ≤ s.rnd.toNat ∧ s.rnd.toNat < (nrOf s.klenR).val
  finalRound : s.fsm = .final → s.rnd.toNat = finalIndex s.opR s.klenR

theorem State.Inv.onTrack {s : State} (h : s.Inv) : s.OnTrack :=
  ⟨h.afterReset, h.klenLegal, h.roundIndex, h.finalRound⟩

theorem State.OnTrack.of_idle {s : State} (hseen : s.resetSeen = true) (hf : s.fsm = .idle) : s.OnTrack where
  afterReset := hseen
  klenLegal hb := absurd hf (s.busy_iff.mp hb)
  roundIndex h := by simp [hf] at h
  finalRound h := by simp [hf] at h

theorem State.OnTrack.klenLegal_of_fsm {s : State} (h : s.OnTrack) {f : Fsm} (hf : s.fsm = f) (hne : f ≠ .idle) :
    s.klenR ≠ 0b11#2 := h.klenLegal (s.busy_iff.mpr (hf ▸ hne))

/-- INIT leads to the first full round. -/
theorem State.OnTrack.of_init {s : State} (h : s.OnTrack) (hf : s.fsm = .init) : (initEdge s).nextCycle.OnTrack := by
  obtain ⟨-, hop, hklen, -, -, -, -, hseen, -⟩ := initEdge_keeps s
  have hk := h.klenLegal_of_fsm hf (by decide)
  have hnr := two_le_nrOf _ hk
  constructor
  · exact hseen.trans h.afterReset
  · intro _
    rw [State.nextCycle_klenR, hklen]
    exact hk
  · intro _
    rw [State.nextCycle_rnd, State.nextCycle_klenR, hklen, initEdge_rnd_toNat s hk]
    exact indexAfter_mem_rounds _ _ 0 (by omega)
  · intro hfinal
    simp at hfinal

/-- A full round leads to the next one, and the last one to FINAL. -/
theorem State.OnTrack.of_round {s : State} (h : s.OnTrack) (hf : s.fsm = .round) (j : Fin 15) :
    (roundEdgeWith s j).nextCycle.OnTrack := by
  obtain ⟨-, hop, hklen, -, -, -, -, hseen, -⟩ := roundEdgeWith_keeps s j
  have hk := h.klenLegal_of_fsm hf (by decide)
  obtain ⟨hlo, hhi⟩ := h.roundIndex hf
  obtain ⟨n, hn, hrnd⟩ := exists_eq_indexAfter s.opR _ _ hlo hhi
  have hrnd' := roundEdgeWith_rnd_toNat s j n hn hrnd
  have hfsm := roundEdgeWith_fsm s j n hk hn hrnd
  constructor
  · exact hseen.trans h.afterReset
  · intro _
    rw [State.nextCycle_klenR, hklen]
    exact hk
  · intro hround
    rw [State.nextCycle_fsm, hfsm] at hround
    rw [State.nextCycle_rnd, State.nextCycle_klenR, hklen, hrnd']
    refine indexAfter_mem_rounds _ _ _ ?_
    by_contra hlast
    simp [hlast] at hround
  · intro hfinal
    rw [State.nextCycle_fsm, hfsm] at hfinal
    rw [State.nextCycle_rnd, State.nextCycle_opR, State.nextCycle_klenR, hop, hklen, hrnd', ← indexAfter_last _ _ hk]
    have hlast : n + 1 = (nrOf s.klenR).val - 1 := by
      by_contra hmore
      rw [if_pos (by omega)] at hfinal
      cases hfinal
    rw [hlast]

theorem State.OnTrack.of_edge {s t : State} (h : s.OnTrack) (e : Edge s t) : t.OnTrack := by
  cases e with
  | reset => exact .of_idle rfl rfl
  | nop hr hf => exact .of_idle h.afterReset hf
  | illegal | rconRange | final | unused => exact .of_idle h.afterReset rfl
  | accept hr hf hs k hk => exact ⟨h.afterReset, fun _ => keyLen_code_ne_illegal k, nofun, nofun⟩
  | keyexp hr hf => exact ⟨h.afterReset, fun _ => h.klenLegal_of_fsm hf (by decide), nofun, nofun⟩
  | init hr hf => exact h.of_init hf
  | round hr hf hlt => exact h.of_round hf _

theorem State.OnTrack.exists_step {s : State} (h : s.OnTrack) : ∃ t, step s = .next t := by
  cases hr : s.ports.rst with
  | true => exact ⟨_, step_of_rst s hr⟩
  | false =>
    obtain ⟨t, ht⟩ := clockEdge_total (idleEffect s.command) s h.afterReset fun hf => by
      have hindex := h.roundIndex hf
      omega
    exact ⟨t.nextCycle, by rw [step_of_not_rst s hr, ht]; rfl⟩

theorem State.OnTrack.exists_steps {s : State} (h : s.OnTrack) (n : Nat) : ∃ t, steps n s = .next t := by
  induction n generalizing s with
  | zero => exact ⟨s, rfl⟩
  | succ n ih =>
    obtain ⟨t, ht⟩ := h.exists_step
    rw [steps_succ n s t ht]
    exact ih (h.of_edge (.of_step ht))

/-- Settles O29: the invariant holds the clauses on which progress rests. -/
theorem noEdgeAfterAResetStops : Obligations.NoEdgeAfterAResetStops :=
  fun _ n h => h.onTrack.exists_steps n

/-! ### The invariant -/

/-- In IDLE the invariant is about the reset seen and the error flags alone. -/
theorem State.Inv.of_idle {s : State} (hseen : s.resetSeen = true) (hf : s.fsm = .idle)
    (herr : s.err = true ↔ s.errCode ≠ 0b00#2) (hcode : s.errCode ≠ 0b11#2) : s.Inv where
  afterReset := hseen
  fsmUsed := by simp [hf]
  errHasCode := herr
  codeNotReserved := hcode
  doneInIdle _ := s.not_busy_iff.mpr hf
  klenLegal hb := absurd hf (s.busy_iff.mp hb)
  busyNoError hb := absurd hf (s.busy_iff.mp hb)
  roundIndex h := by simp [hf] at h
  finalRound h := by simp [hf] at h
  scheduleLoaded h := by simp [hf] at h

/-- The error flags: every edge writes one of the codes of rule R151 together with its `err`, or keeps both. -/
theorem State.Inv.error_of_edge {s t : State} (h : s.Inv) (e : Edge s t) :
    (t.err = true ↔ t.errCode ≠ 0b00#2) ∧ t.errCode ≠ 0b11#2 := by
  have hwrite := e.error_eq
  split_ifs at hwrite <;> obtain ⟨herr, hcode⟩ := Prod.mk.inj hwrite <;> rw [herr, hcode]
  · decide
  · decide
  · decide
  · decide
  · exact ⟨h.errHasCode, h.codeNotReserved⟩

theorem State.Inv.busyNoError_of_edge {s t : State} (h : s.Inv) (e : Edge s t) (hb : t.busy = true) : t.err = false := by
  have hidle := t.busy_iff.mp hb
  cases e with
  | reset | illegal | rconRange | final | unused => exact absurd rfl hidle
  | nop hr hf => exact absurd hf hidle
  | accept => rfl
  | keyexp hr hf => exact h.busyNoError (s.busy_iff.mpr (by simp [hf]))
  | init hr hf =>
    obtain ⟨-, -, -, -, -, herr, -⟩ := initEdge_keeps s
    exact herr.trans (h.busyNoError (s.busy_iff.mpr (by simp [hf])))
  | round hr hf hlt =>
    obtain ⟨-, -, -, -, -, herr, -⟩ := roundEdgeWith_keeps s ⟨s.rnd.toNat, hlt⟩
    exact herr.trans (h.busyNoError (s.busy_iff.mpr (by simp [hf])))

/-- The KEYEXP edge loads the schedule of the latched key, and the edges after it keep the key and the schedule. -/
theorem State.Inv.schedule_of_edge {s t : State} (h : s.Inv) (e : Edge s t)
    (ht : t.fsm = .init ∨ t.fsm = .round ∨ t.fsm = .final) : t.sched = t.ownSchedule := by
  cases e with
  | reset | illegal | accept | rconRange | final | unused => simp at ht
  | nop hr hf => simp [hf] at ht
  | keyexp => rfl
  | init hr hf =>
    obtain ⟨hkey, -, hklen, hsched, -⟩ := initEdge_keeps s
    rw [State.ownSchedule, State.nextCycle_sched, State.nextCycle_keyR, State.nextCycle_klenR, hkey, hklen, hsched]
    exact h.scheduleLoaded (.inl hf)
  | round hr hf hlt =>
    obtain ⟨hkey, -, hklen, hsched, -⟩ := roundEdgeWith_keeps s ⟨s.rnd.toNat, hlt⟩
    rw [State.ownSchedule, State.nextCycle_sched, State.nextCycle_keyR, State.nextCycle_klenR, hkey, hklen, hsched]
    exact h.scheduleLoaded (.inr (.inl hf))

theorem State.Inv.of_edge {s t : State} (h : s.Inv) (e : Edge s t) : t.Inv := by
  obtain ⟨hseen, hklen, hround, hfinal⟩ := h.onTrack.of_edge e
  obtain ⟨herr, hcode⟩ := h.error_of_edge e
  exact {
    afterReset := hseen
    fsmUsed := e.fsm_used
    errHasCode := herr
    codeNotReserved := hcode
    doneInIdle := fun hd => t.not_busy_iff.mpr (e.idle_of_done hd)
    klenLegal := hklen
    busyNoError := h.busyNoError_of_edge e
    roundIndex := hround
    finalRound := hfinal
    scheduleLoaded := h.schedule_of_edge e }

/-- Settles O28, clause by clause over the cases of `Edge`. -/
theorem everyEdgeKeepsTheInvariant : Obligations.EveryEdgeKeepsTheInvariant :=
  fun _ _ h hstep => h.of_edge (.of_step hstep)

/-! ### After a reset -/

/-- Settles O27: the reset state is in IDLE with no error. -/
theorem resetStateMeetsTheInvariant : Obligations.ResetStateMeetsTheInvariant :=
  .of_idle rfl rfl (by decide) (by decide)

theorem State.resetEdge_inv (s : State) : s.resetEdge.nextCycle.Inv :=
  .of_idle rfl rfl (by simp [ErrCode.bits]) (by simp [ErrCode.bits])

/-- Settles O19: the reset edge leads to IDLE with no error, from every state. -/
theorem bootNeedsOneResetEdge : Obligations.BootNeedsOneResetEdge :=
  fun s hr => ⟨_, step_of_rst s hr, s.resetEdge_ready, s.resetEdge_inv⟩

end Sys2Proof.Machine
end

section
/-! Hidden state (10_state.md, section 3): two machines that agree outside the data registers, and on those that the command in
progress has written, take the same edges and stay so. -/

namespace Sys2Proof.Machine

theorem State.agreesOutsideDataRegisters.ports {s t : State} (h : s.agreesOutsideDataRegisters t) : s.ports = t.ports := by
  obtain ⟨-, -, -, -, -, -, hhost⟩ := h
  rw [State.ports, State.ports, hhost]

theorem State.command_congr {s t : State} (h : s.ports = t.ports) : s.command = t.command := by
  rw [State.command, State.command, h]

theorem State.agreesOutsideDataRegisters.outputs {s t : State} (h : s.agreesOutsideDataRegisters t) :
    s.outputs = t.outputs := by
  obtain ⟨hf, hblk, hdone, herr, hcode, -, -⟩ := h
  rw [State.outputs, State.outputs, State.busy, State.busy, hf, hblk, hdone, herr, hcode]

theorem State.agreesOutsideDataRegisters.nextCycle {s t : State} (h : s.agreesOutsideDataRegisters t) :
    s.nextCycle.agreesOutsideDataRegisters t.nextCycle := by
  obtain ⟨hf, hblk, hdone, herr, hcode, hseen, hhost⟩ := h
  exact ⟨hf, hblk, hdone, herr, hcode, hseen, congrArg List.tail hhost⟩

/-! ### Machines alike for their host -/

theorem State.alikeForHost.refl (s : State) : s.alikeForHost s :=
  ⟨⟨rfl, rfl, rfl, rfl, rfl, rfl, rfl⟩, fun _ => ⟨rfl, rfl, rfl, rfl⟩, fun _ => rfl, fun _ => rfl⟩

/-- Outside the four states of a command no data register has been written. -/
theorem State.alikeForHost.of_not_inCommand {s t : State} (h : s.agreesOutsideDataRegisters t) (hs : ¬ s.inCommand) :
    s.alikeForHost t where
  outside := h
  latched hc := absurd hc hs
  schedule hf := absurd (.inr hf) hs
  index hf := absurd (.inr (.inr hf)) hs

theorem not_inCommand_of_idle {s : State} (hf : s.fsm = .idle) : ¬ s.inCommand := by
  simp [State.inCommand, hf]

theorem State.alikeForHost.nextCycle {s t : State} (h : s.alikeForHost t) : s.nextCycle.alikeForHost t.nextCycle :=
  ⟨h.outside.nextCycle, h.latched, h.schedule, h.index⟩

/-- In KEYEXP the two machines differ at most in `SCHED` and `rnd`. -/
theorem State.alikeForHost.eq_of_keyexp {s t : State} (h : s.alikeForHost t) (hf : s.fsm = .keyexp) :
    t = { s with sched := t.sched, rnd := t.rnd } := by
  obtain ⟨hfsm, hblk, hdone, herr, hcode, hseen, hhost⟩ := h.outside
  obtain ⟨hst, hkey, hop, hklen⟩ := h.latched (.inl hf)
  rw [hfsm, hblk, hdone, herr, hcode, hseen, hhost, hst, hkey, hop, hklen]

/-- From INIT on the two machines differ at most in `rnd`. -/
theorem State.alikeForHost.eq_of_scheduled {s t : State} (h : s.alikeForHost t)
    (hf : s.fsm = .init ∨ s.fsm = .round ∨ s.fsm = .final) : t = { s with rnd := t.rnd } := by
  obtain ⟨hfsm, hblk, hdone, herr, hcode, hseen, hhost⟩ := h.outside
  obtain ⟨hst, hkey, hop, hklen⟩ := h.latched (.inr hf)
  rw [hfsm, hblk, hdone, herr, hcode, hseen, hhost, hst, hkey, hop, hklen, h.schedule hf]

/-- In ROUND and FINAL every data register has been written: the two machines are one. -/
theorem State.alikeForHost.eq_of_round_or_final {s t : State} (h : s.alikeForHost t) (hf : s.fsm = .round ∨ s.fsm = .final) :
    t = s :=
  (h.eq_of_scheduled (.inr hf)).trans (by rw [← h.index hf])

/-! ### The edges -/

theorem State.alikeForHost.resetEdge {s t : State} (h : s.alikeForHost t) : s.resetEdge.alikeForHost t.resetEdge := by
  obtain ⟨-, -, -, -, -, -, hhost⟩ := h.outside
  exact .of_not_inCommand ⟨rfl, rfl, rfl, rfl, rfl, rfl, hhost⟩ (not_inCommand_of_idle rfl)

/-- Acceptance latches every operand and selector from the ports (rule R131). -/
theorem State.alikeForHost.accept {s t : State} (h : s.alikeForHost t) (k : KeyLen) (op : Op) :
    (s.accept k op).alikeForHost (t.accept k op) := by
  have hports := h.outside.ports
  obtain ⟨-, hblk, -, -, -, hseen, hhost⟩ := h.outside
  exact {
    outside := ⟨rfl, hblk, rfl, rfl, rfl, hseen, hhost⟩
    latched := fun _ => ⟨congrArg Ports.blkIn hports, congrArg Ports.keyIn hports, rfl, rfl⟩
    schedule := nofun
    index := nofun }

theorem State.alikeForHost.reject {s t : State} (h : s.alikeForHost t) (c : ErrCode) :
    (s.reject c).alikeForHost (t.reject c) := by
  obtain ⟨-, hblk, -, -, -, hseen, hhost⟩ := h.outside
  exact .of_not_inCommand ⟨rfl, hblk, rfl, rfl, rfl, hseen, hhost⟩ (not_inCommand_of_idle rfl)

theorem State.alikeForHost.setDone {s t : State} (h : s.alikeForHost t) (b : Bool) :
    (s.setDone b).alikeForHost (t.setDone b) := by
  obtain ⟨hf, hblk, -, herr, hcode, hseen, hhost⟩ := h.outside
  exact ⟨⟨hf, hblk, rfl, herr, hcode, hseen, hhost⟩, h.latched, h.schedule, h.index⟩

theorem idleEffect_alikeForHost {s t : State} (h : s.alikeForHost t) (i : Instr) :
    (idleEffect i s).alikeForHost (idleEffect i t) := by
  cases i with
  | enc128 => exact h.accept .aes128 .encrypt
  | dec128 => exact h.accept .aes128 .decrypt
  | enc192 => exact h.accept .aes192 .encrypt
  | dec192 => exact h.accept .aes192 .decrypt
  | enc256 => exact h.accept .aes256 .encrypt
  | dec256 => exact h.accept .aes256 .decrypt
  | nop klen op => exact h.setDone false
  | bad op => exact h.reject .klenInvalid

/-- The KEYEXP edge reads the latched key and selector only, and writes `SCHED`. -/
theorem keyexpEdge_alikeForHost {s t : State} (h : s.alikeForHost t) (hf : s.fsm = .keyexp) :
    (keyexpEdge s).alikeForHost (keyexpEdge t) := by
  rw [h.eq_of_keyexp hf, keyexpEdge_of_not_rconErr s (keyExpand_rconErr _ _),
    keyexpEdge_of_not_rconErr _ (keyExpand_rconErr _ _)]
  exact ⟨⟨rfl, rfl, rfl, rfl, rfl, rfl, rfl⟩, fun _ => ⟨rfl, rfl, rfl, rfl⟩, fun _ => rfl, nofun⟩

/-- The INIT edge writes `rnd` and does not read it. -/
theorem State.alikeForHost.initEdge_eq {s t : State} (h : s.alikeForHost t) (hf : s.fsm = .init) :
    initEdge s = initEdge t := by
  rw [h.eq_of_scheduled (.inl hf)]
  cases ho : s.opR <;> simp [initEdge, ho, State.setDone]

theorem unusedEdge_alikeForHost {s t : State} (h : s.alikeForHost t) : (unusedEdge s).alikeForHost (unusedEdge t) := by
  obtain ⟨-, hblk, -, herr, hcode, hseen, hhost⟩ := h.outside
  exact .of_not_inCommand ⟨rfl, hblk, rfl, herr, hcode, hseen, hhost⟩ (not_inCommand_of_idle rfl)

theorem State.alikeForHost.exists_clockEdge {s t u : State} (h : s.alikeForHost t) (i : Instr)
    (hu : clockEdge (idleEffect i) s = .next u) :
    ∃ v, clockEdge (idleEffect i) t = .next v ∧ u.alikeForHost v := by
  obtain ⟨hfsm, -, -, -, -, hseenEq, -⟩ := h.outside
  obtain ⟨hseen, hidle | hkeyexp | hinit | hround | hfinal | hunused⟩ := clockEdge_cases _ s u hu <;> rw [hseenEq] at hseen
  · obtain ⟨hf, rfl⟩ := hidle
    exact ⟨_, clockEdge_idle _ t hseen (hfsm ▸ hf), idleEffect_alikeForHost h i⟩
  · obtain ⟨hf, rfl⟩ := hkeyexp
    exact ⟨_, clockEdge_keyexp _ t hseen (hfsm ▸ hf), keyexpEdge_alikeForHost h hf⟩
  · obtain ⟨hf, rfl⟩ := hinit
    exact ⟨_, clockEdge_init _ t hseen (hfsm ▸ hf), h.initEdge_eq hf ▸ .refl _⟩
  · obtain ⟨hf, -⟩ := hround
    rw [h.eq_of_round_or_final (.inl hf)]
    exact ⟨u, hu, .refl u⟩
  · obtain ⟨hf, -⟩ := hfinal
    rw [h.eq_of_round_or_final (.inr hf)]
    exact ⟨u, hu, .refl u⟩
  · obtain ⟨hf, rfl⟩ := hunused
    exact ⟨_, clockEdge_unused _ t hseen (hfsm ▸ hf), unusedEdge_alikeForHost h⟩

theorem State.alikeForHost.exists_step {s t s' : State} (h : s.alikeForHost t) (hs : step s = .next s') :
    ∃ t', step t = .next t' ∧ s'.alikeForHost t' := by
  have hports := h.outside.ports
  obtain ⟨hr, rfl⟩ | ⟨hr, u, hu, rfl⟩ := step_cases s s' hs
  · exact ⟨_, step_of_rst t (hports ▸ hr), h.resetEdge.nextCycle⟩
  · obtain ⟨v, hv, huv⟩ := h.exists_clockEdge _ hu
    refine ⟨v.nextCycle, ?_, huv.nextCycle⟩
    rw [step_of_not_rst t (hports ▸ hr), ← State.command_congr hports, hv]
    rfl

/-- Settles O53: no edge reads a data register before its own command has written it. -/
theorem everyEdgeKeepsMachinesAlikeForTheHost : Obligations.EveryEdgeKeepsMachinesAlikeForTheHost :=
  fun _ _ _ h hs => h.exists_step hs

/-! ### Whole runs -/

theorem State.alikeForHost.exists_steps {s t s' : State} (h : s.alikeForHost t) (n : Nat) (hs : steps n s = .next s') :
    ∃ t', steps n t = .next t' ∧ s'.alikeForHost t' := by
  induction n generalizing s t with
  | zero =>
    cases hs
    exact ⟨t, rfl, h⟩
  | succ n ih =>
    cases hstep : step s with
    | next u =>
      obtain ⟨v, hv, huv⟩ := h.exists_step hstep
      rw [steps_succ n s u hstep] at hs
      rw [steps_succ n t v hv]
      exact ih huv hs
    | fault r => simp [steps, hstep] at hs
    | refused r => simp [steps, hstep] at hs

/-- Settles O34: a ready machine goes on for ever, and the other one stays alike for its host. -/
theorem hiddenRegistersNeverReachAnOutput : Obligations.HiddenRegistersNeverReachAnOutput := by
  intro s t n ⟨hseen, hf⟩ h
  obtain ⟨s', hs'⟩ := (State.OnTrack.of_idle hseen hf).exists_steps n
  obtain ⟨t', ht', halike⟩ := (State.alikeForHost.of_not_inCommand h (not_inCommand_of_idle hf)).exists_steps n hs'
  exact ⟨s', t', hs', ht', halike.outside.outputs, halike.outside⟩

end Sys2Proof.Machine
end

section
/-! The opcode map in both directions (30_encoding.md), and the command that the ports, a table word or a program line present to
the next step. -/

namespace Sys2Proof.Machine

/-! ### Decoding and encoding -/

@[simp] theorem decode_encode (i : Instr) : decode (encode i) = i := by
  cases i with
  | nop klen op =>
    revert klen
    cases op <;> decide
  | bad op => cases op <;> decide
  | enc128 | dec128 | enc192 | dec192 | enc256 | dec256 => decide

@[simp] theorem encode_decode (w : IssueWord) : encode (decode w) = w := by
  revert w
  decide

@[simp] theorem decodeBytes_encodeBytes (i : Instr) (rest : List Byte) :
    decodeBytes (encodeBytes i ++ rest) = .ok (i, rest) := by
  have hword : ∀ w : IssueWord, (w.setWidth 8).extractLsb' 4 4 = 0#4 ∧ (w.setWidth 8).extractLsb' 0 4 = w := by decide
  obtain ⟨hstray, hissue⟩ := hword (encode i)
  rw [encodeBytes, List.singleton_append, decodeBytes, if_pos hstray, hissue, decode_encode]

/-- The per-command law of the opcode table, for every command. -/
theorem ownOpcodeRow (i : Instr) : Laws.OwnOpcodeRow.Statement i := by
  cases i with
  | enc128 => exact Laws.OwnOpcodeRow.enc128
  | dec128 => exact Laws.OwnOpcodeRow.dec128
  | enc192 => exact Laws.OwnOpcodeRow.enc192
  | dec192 => exact Laws.OwnOpcodeRow.dec192
  | enc256 => exact Laws.OwnOpcodeRow.enc256
  | dec256 => exact Laws.OwnOpcodeRow.dec256
  | nop klen op => exact Laws.OwnOpcodeRow.nop klen op
  | bad op => exact Laws.OwnOpcodeRow.bad op

theorem wellFormed_eq_true (i : Instr) : i.wellFormed = true := by
  obtain ⟨hwf, -⟩ := ownOpcodeRow i
  exact hwf

/-- Settles O1: the two directions of the opcode map, and the byte form. -/
theorem commandsSurviveEncodingAndDecoding : Obligations.CommandsSurviveEncodingAndDecoding :=
  ⟨fun i _ => decode_encode i, fun w => ⟨wellFormed_eq_true (decode w), encode_decode w⟩,
    fun i rest _ => decodeBytes_encodeBytes i rest⟩

/-- Settles O2: every word is the encoding of a command, whose own row is the only one. -/
theorem everyIssueWordHasExactlyOneRow : Obligations.EveryIssueWordHasExactlyOneRow := by
  intro w
  obtain ⟨-, hrow⟩ := ownOpcodeRow (decode w)
  rwa [encode_decode] at hrow

/-- Settles O3 by evaluating the decoder at the ten words. -/
theorem decoderReadsTheWrittenWords : Obligations.DecoderReadsTheWrittenWords := by
  unfold Obligations.DecoderReadsTheWrittenWords
  decide

/-! ### The command of the next step -/

theorem step_eq_exec_command (s : State) (hr : s.ports.rst = false) :
    step s = andThen (exec s.command s) State.nextCycle := by
  simp [step, hr]

/-- Settles O4: the decoder reads the encoded command off the ports. -/
theorem stepRunsTheDecodedCommand : Obligations.StepRunsTheDecodedCommand := by
  intro s i _ hr hw
  rw [step_eq_exec_command s hr, State.command, hw, decode_encode]

/-- The issue word is the one whose three fields are on the ports (rule R60). -/
theorem issueWord_eq_of_fields (p : Ports) (w : IssueWord) (hs : p.start = (w.start == 1#1)) (hk : p.klen = w.klen)
    (ho : p.op = w.op) : issueWord p = w := by
  rw [issueWord, hs, hk, ho]
  clear hs hk ho
  revert w
  decide

@[simp] theorem issueWord_withIssue (p : Ports) (w : IssueWord) : issueWord (p.withIssue w) = w :=
  issueWord_eq_of_fields _ w rfl rfl rfl

theorem extractLsb'_zero_four_ofNat (w : Nat) : (BitVec.ofNat 8 w).extractLsb' 0 4 = BitVec.ofNat 4 w := by
  apply BitVec.eq_of_toNat_eq
  simp only [BitVec.extractLsb'_toNat, BitVec.toNat_ofNat, Nat.shiftRight_zero]
  omega

/-- A table word that decodes is decoded from its low four bits. -/
theorem eq_decode_of_decodeTableWord (nbits w : Nat) (i : Instr) (h : decodeTableWord nbits w = some i) :
    i = decode (BitVec.ofNat 4 w) := by
  have hpos : max 1 ((nbits + 7) / 8) = max 1 ((nbits + 7) / 8) - 1 + 1 := by omega
  have hbytes : ∃ rest, tableWordBytes nbits w = BitVec.ofNat 8 w :: rest := by
    rw [tableWordBytes, hpos, List.range_succ_eq_map, List.map_cons, Nat.mul_zero, pow_zero, Nat.div_one]
    exact ⟨_, rfl⟩
  obtain ⟨rest, hbytes⟩ := hbytes
  rw [decodeTableWord, hbytes, decodeBytes, extractLsb'_zero_four_ofNat] at h
  split at h
  · split at h
    · rename_i j rest' hdecode
      split at hdecode
      · cases hdecode
        split at h <;> cases h
        rfl
      · cases hdecode
    · cases h
  · cases h

/-- Settles O5: the placed word is the issue word on the ports. -/
theorem placedWordRunsNext : Obligations.PlacedWordRunsNext := by
  intro s nbits w i h
  refine ⟨⟨rfl, rfl⟩, ?_⟩
  rw [step_eq_exec_command _ rfl, State.command, State.withFetchWord_ports, issueWord_withIssue,
    eq_decode_of_decodeTableWord nbits w i h]

/-! ### Program lines -/

/-- Byte `k` of a key bus packed from 32 bytes (rule R45). -/
theorem keyByte_pack (f : Nat → Byte) (k : Nat) (hk : k < 32) : keyByte (pack 8 256 ((List.range 32).map f)) k = f k := by
  have h := extractLsb'_pack 8 256 ((List.range 32).map f) (by simp) k (by simpa using hk)
  have hpos : 8 * (((List.range 32).map f).length - 1 - k) = 248 - 8 * k := by
    rw [List.length_map, List.length_range]
    omega
  rw [hpos] at h
  simpa [keyByte] using h

@[simp] theorem issueWord_linePorts (i : Instr) (blk key : List Byte) :
    issueWord (linePorts (.issue i blk key)) = encode i :=
  issueWord_eq_of_fields _ (encode i) rfl rfl rfl

/-- Settles O6: a line puts the fields of its issue word on the ports and packs its operands byte 0 first. -/
theorem linesDriveTheirPorts : Obligations.LinesDriveTheirPorts :=
  ⟨fun i blk key _ =>
    ⟨rfl, issueWord_linePorts i blk key, blockByte_blockOfBytes fun k => blk.getD k 0#8,
      keyByte_pack fun k => key.getD k 0#8⟩, rfl⟩

end Sys2Proof.Machine
end

section
/-! The edge with `rst = 1` and the machine before it (70_reset_and_hazards.md, section 1), and the frame of the data registers
over every edge (10_state.md, section 2). -/

namespace Sys2Proof.Machine

/-- Settles O17: the step with `rst = 1` is the reset edge. -/
theorem resetEdgeWritesTheVisibleRegisters : Obligations.ResetEdgeWritesTheVisibleRegisters :=
  fun s hr => step_of_rst s hr

theorem exec_before_reset (i : Instr) (s : State) (h : s.resetSeen = false) : exec i s = .fault .edgeBeforeReset := by
  rw [exec_eq_clockEdge, clockEdge_before_reset _ s h]

theorem readOutputs_before_reset (s : State) (h : s.resetSeen = false) : readOutputs s = .fault .outputBeforeReset := by
  simp [readOutputs, h]

theorem readOutputs_after_reset (s : State) (h : s.resetSeen = true) : readOutputs s = .next s.outputs := by
  simp [readOutputs, h]

/-- Settles O20, by whether a reset has been seen. -/
theorem nothingRunsBeforeTheFirstReset : Obligations.NothingRunsBeforeTheFirstReset :=
  ⟨fun s i h => ⟨exec_before_reset i s h, readOutputs_before_reset s h⟩, fun _ => rfl, readOutputs_after_reset⟩

/-- Settles O21, field by field of the literal state. -/
theorem resetStateHasTheSpecsValues : Obligations.ResetStateHasTheSpecsValues :=
  ⟨rfl, rfl, rfl, rfl, rfl, rfl, rfl⟩

/-! ### The frame of the data registers -/

/-- The latched operands and selectors are written at acceptance alone (rule R131). -/
theorem Edge.latched_eq {s t : State} (e : Edge s t)
    (h : ¬ (s.ports.rst = false ∧ s.fsm = .idle ∧ s.ports.start = true ∧ s.ports.klen ≠ 0b11#2)) :
    t.keyR = s.keyR ∧ t.opR = s.opR ∧ t.klenR = s.klenR := by
  cases e with
  | accept hr hf hs k hk => exact absurd ⟨hr, hf, hs, hk ▸ keyLen_code_ne_illegal k⟩ h
  | init => simp [initEdge_keeps]
  | round => simp [roundEdgeWith_keeps]
  | final => simp [finalEdge_keeps]
  | reset | nop | illegal | rconRange | keyexp | unused => exact ⟨rfl, rfl, rfl⟩

/-- `st` is written at acceptance and by INIT, ROUND and FINAL (rules R131 and R133 to R136). -/
theorem Edge.st_eq {s t : State} (e : Edge s t)
    (hlegal : ¬ (s.ports.rst = false ∧ s.fsm = .idle ∧ s.ports.start = true ∧ s.ports.klen ≠ 0b11#2))
    (h : ¬ (s.ports.rst = false ∧ (s.fsm = .init ∨ s.fsm = .round ∨ s.fsm = .final))) : t.st = s.st := by
  cases e with
  | accept hr hf hs k hk => exact absurd ⟨hr, hf, hs, hk ▸ keyLen_code_ne_illegal k⟩ hlegal
  | init hr hf => exact absurd ⟨hr, .inl hf⟩ h
  | round hr hf => exact absurd ⟨hr, .inr (.inl hf)⟩ h
  | final hr hf => exact absurd ⟨hr, .inr (.inr hf)⟩ h
  | reset | nop | illegal | rconRange | keyexp | unused => rfl

/-- `SCHED` is written by KEYEXP alone (rule R132). -/
theorem Edge.sched_eq {s t : State} (e : Edge s t) (h : ¬ (s.ports.rst = false ∧ s.fsm = .keyexp)) : t.sched = s.sched := by
  cases e with
  | keyexp hr hf => exact absurd ⟨hr, hf⟩ h
  | init => simp [initEdge_keeps]
  | round => simp [roundEdgeWith_keeps]
  | final => simp [finalEdge_keeps]
  | reset | nop | illegal | accept | rconRange | unused => rfl

/-- `rnd` is written by INIT and ROUND alone (rules R133 to R135). -/
theorem Edge.rnd_eq {s t : State} (e : Edge s t) (h : ¬ (s.ports.rst = false ∧ (s.fsm = .init ∨ s.fsm = .round))) :
    t.rnd = s.rnd := by
  cases e with
  | init hr hf => exact absurd ⟨hr, .inl hf⟩ h
  | round hr hf => exact absurd ⟨hr, .inr hf⟩ h
  | final => simp [finalEdge_keeps]
  | reset | nop | illegal | accept | rconRange | keyexp | unused => rfl

theorem Edge.host_eq {s t : State} (e : Edge s t) : t.host = s.host.tail := by
  cases e with
  | init => simp [initEdge_keeps]
  | round => simp [roundEdgeWith_keeps]
  | final => simp [finalEdge_keeps]
  | reset | nop | illegal | accept | rconRange | keyexp | unused => rfl

/-- Settles O26, register by register over the cases of `Edge`. -/
theorem dataRegistersAreWrittenOnlyByTheirRules : Obligations.DataRegistersAreWrittenOnlyByTheirRules := by
  intro s t h
  have e := Edge.of_step h
  refine ⟨fun hlegal => ?_, e.sched_eq, e.rnd_eq, e.host_eq⟩
  obtain ⟨hkey, hop, hklen⟩ := e.latched_eq hlegal
  exact ⟨hkey, hop, hklen, e.st_eq hlegal⟩

end Sys2Proof.Machine
end

section
/-! The field laws of galois_mult_8 (40_galois.md, section 4). xtime is additive, so the block is additive in both operands and
commutes with xtime; the laws then follow by induction on a byte, built from 1 by xtime and XOR. -/

namespace Sys2Proof.Machine

/-! ### The block is bilinear -/

@[simp] theorem xtime_xor (a b : Byte) : xtime (a ^^^ b) = xtime a ^^^ xtime b := by
  have hreduce : ∀ c : Byte, xtime c = polyReduce (c.setWidth 15 <<< 1) := fun c =>
    (polyReduce_shiftLeft c 1 (by decide)).symm
  rw [hreduce, hreduce, hreduce, BitVec.setWidth_xor, BitVec.shiftLeft_xor_distrib, polyReduce_xor]

theorem iterate_xtime_xor (n : Nat) (a b : Byte) : xtime^[n] (a ^^^ b) = xtime^[n] a ^^^ xtime^[n] b :=
  Function.Semiconj₂.iterate xtime_xor n a b

/-- A sum of sums of two terms, term by term. -/
theorem foldl_xor_xor (f g : Nat → Byte) (is : List Nat) :
    is.foldl (fun (q : Byte) i => q ^^^ (f i ^^^ g i)) 0x00#8 =
      is.foldl (fun (q : Byte) i => q ^^^ f i) 0x00#8 ^^^ is.foldl (fun (q : Byte) i => q ^^^ g i) 0x00#8 := by
  have hstep : ∀ (p q : Byte) i, (p ^^^ f i) ^^^ (q ^^^ g i) = (p ^^^ q) ^^^ (f i ^^^ g i) := fun p q i => by ac_rfl
  rw [← List.foldl_hom₂ is (· ^^^ ·) _ _ (fun q i => q ^^^ (f i ^^^ g i)) _ _ hstep, BitVec.xor_self]

theorem xor_galoisMult8 (a a' b : Byte) : galoisMult8 (a ^^^ a') b = galoisMult8 a b ^^^ galoisMult8 a' b := by
  have hterm : ∀ i, xtimeTerm (a ^^^ a') b i = xtimeTerm a b i ^^^ xtimeTerm a' b i := fun i => by
    unfold xtimeTerm
    split <;> simp [iterate_xtime_xor]
  simp only [galoisMult8_eq_foldl, hterm, foldl_xor_xor]

theorem galoisMult8_xor (a b b' : Byte) : galoisMult8 a (b ^^^ b') = galoisMult8 a b ^^^ galoisMult8 a b' := by
  have hterm : ∀ i, xtimeTerm a (b ^^^ b') i = xtimeTerm a b i ^^^ xtimeTerm a b' i := fun i => by
    simp only [xtimeTerm, BitVec.getLsbD_xor]
    cases b.getLsbD i <;> cases b'.getLsbD i <;> simp
  simp only [galoisMult8_eq_foldl, hterm, foldl_xor_xor]

theorem xtime_galoisMult8 (a b : Byte) : galoisMult8 (xtime a) b = xtime (galoisMult8 a b) := by
  simp only [galoisMult8_eq_foldl]
  refine List.foldl_hom (init := 0x00#8) xtime fun q i => ?_
  rw [xtime_xor]
  unfold xtimeTerm
  split
  · rw [← Function.iterate_succ_apply, Function.iterate_succ_apply']
  · rw [xtime_zero]

@[simp] theorem one_galoisMult8 (b : Byte) : galoisMult8 0x01#8 b = b := by
  revert b
  decide

/-! ### Induction on a byte -/

/-- A byte is the sum of the powers of xtime at its bits. -/
theorem byte_induction {P : Byte → Prop} (hzero : P 0x00#8) (hone : P 0x01#8) (hxtime : ∀ b, P b → P (xtime b))
    (hxor : ∀ b c, P b → P c → P (b ^^^ c)) (b : Byte) : P b := by
  have hpower : ∀ i, P (xtime^[i] 0x01#8) := fun i => by
    induction i with
    | zero => exact hone
    | succ i ih =>
      rw [Function.iterate_succ_apply']
      exact hxtime _ ih
  rw [← one_galoisMult8 b, galoisMult8_eq_foldl]
  refine List.foldlRecOn _ _ hzero fun q hq i _ => hxor q _ hq ?_
  unfold xtimeTerm
  split
  · exact hpower i
  · exact hzero

theorem galoisMult8_xtime (a b : Byte) : galoisMult8 a (xtime b) = xtime (galoisMult8 a b) := by
  induction a using byte_induction with
  | hzero => simp
  | hone => simp
  | hxtime a ih => rw [xtime_galoisMult8, xtime_galoisMult8, ih]
  | hxor a a' ih ih' => rw [xor_galoisMult8, xor_galoisMult8, xtime_xor, ih, ih']

theorem galoisMult8_comm (a b : Byte) : galoisMult8 a b = galoisMult8 b a := by
  induction b using byte_induction with
  | hzero => simp
  | hone => simp
  | hxtime b ih => rw [galoisMult8_xtime, xtime_galoisMult8, ih]
  | hxor b b' ih ih' => rw [galoisMult8_xor, xor_galoisMult8, ih, ih']

theorem galoisMult8_assoc (a b c : Byte) : galoisMult8 (galoisMult8 a b) c = galoisMult8 a (galoisMult8 b c) := by
  induction a using byte_induction with
  | hzero => simp
  | hone => simp
  | hxtime a ih => rw [xtime_galoisMult8, xtime_galoisMult8, xtime_galoisMult8, ih]
  | hxor a a' ih ih' => rw [xor_galoisMult8, xor_galoisMult8, xor_galoisMult8, ih, ih']

/-! ### The inverse -/

/-- The power 254 at each of the 256 bytes, evaluated once for the S-box and for the inverse (rule R50). -/
theorem gfInv_spec (x : Byte) :
    romSbox x = sboxAffine (gfInv x) ∧ (x ≠ 0x00#8 → galoisMult8 x (gfInv x) = 0x01#8) := by
  revert x
  decide +kernel

theorem galoisMult8_gfInv (x : Byte) (h : x ≠ 0x00#8) : galoisMult8 x (gfInv x) = 0x01#8 := by
  obtain ⟨-, hinv⟩ := gfInv_spec x
  exact hinv h

theorem romSbox_eq_sboxGenerated (x : Byte) : romSbox x = sboxGenerated x := by
  obtain ⟨hsbox, -⟩ := gfInv_spec x
  exact hsbox

/-- The inverse is the only one: multiply `a • b = 1` by it. -/
theorem eq_gfInv_of_galoisMult8_eq_one (a b : Byte) (ha : a ≠ 0x00#8) (h : galoisMult8 a b = 0x01#8) : b = gfInv a :=
  calc b
    _ = galoisMult8 (galoisMult8 a (gfInv a)) b := by rw [galoisMult8_gfInv a ha, one_galoisMult8]
    _ = galoisMult8 (galoisMult8 a b) (gfInv a) := by
      rw [galoisMult8_assoc, galoisMult8_comm (gfInv a), ← galoisMult8_assoc]
    _ = gfInv a := by rw [h, one_galoisMult8]

/-- Settles O38: the laws by induction on a byte, and the inverse that the power 254 gives. -/
theorem galoisMultObeysTheFieldLaws : Obligations.GaloisMultObeysTheFieldLaws :=
  ⟨galoisMult8_comm, galoisMult8_assoc, galoisMult8_xor, one_galoisMult8, fun a ha =>
    ⟨gfInv a, galoisMult8_gfInv a ha, fun b hb => eq_gfInv_of_galoisMult8_eq_one a b ha hb⟩⟩

/-! ### The fixed multipliers -/

/-- Settles O37: the loop adds the xtime powers at the bits of the constant, and xtime is additive. -/
theorem fixedMultipliersAreProductsByConstants : Obligations.FixedMultipliersAreProductsByConstants := by
  intro b
  refine ⟨(galoisMult8_two b).symm, ?_, ?_, ?_, ?_, ?_⟩ <;>
    simp [galoisMult8, galoisLoop, and_byteMask, mul3, mul9, mulB, mulD, mulE] <;> ac_rfl

/-! ### The tables -/

/-- Settles O39, at each of the 256 bytes. -/
theorem sboxTablesUndoOneAnother : Obligations.SboxTablesUndoOneAnother := by
  unfold Obligations.SboxTablesUndoOneAnother
  decide +kernel

/-- Settles O40: the table at each of the 256 bytes, and the inverse of the field laws. -/
theorem sboxMatchesItsGeneratingDefinition : Obligations.SboxMatchesItsGeneratingDefinition :=
  ⟨romSbox_eq_sboxGenerated, by decide, galoisMult8_gfInv⟩

theorem rcon_eq_none (j : Nat) (h : j = 0 ∨ 10 < j) : rcon j = none := by
  unfold rcon romRcon
  obtain rfl | h := h
  · rfl
  · have hout : rconTable.length ≤ j - 1 := by
      rw [show rconTable.length = 10 from rfl]
      omega
    rw [if_neg (by omega), List.getElem?_eq_none hout, Option.map_none]

theorem rcon_of_romRcon (j : Nat) (b : Byte) (h : romRcon j = some b) : rcon j = some (b ++ 0#24) := by
  have hword : wordOfBytes b 0#8 0#8 0#8 = b ++ 0#24 := by
    rw [wordOfBytes, BitVec.append_assoc, BitVec.append_assoc]
    rfl
  rw [rcon, h, Option.map_some, hword]

theorem exists_romRcon (j : Nat) (hlo : 1 ≤ j) (hhi : j ≤ 10) : ∃ b, romRcon j = some b := by
  have hin : j - 1 < rconTable.length := by
    rw [show rconTable.length = 10 from rfl]
    omega
  exact ⟨rconTable[j - 1], by rw [romRcon, if_neg (by omega), List.getElem?_eq_getElem hin]⟩

theorem romRcon_map_xtime (j : Nat) (hlo : 1 ≤ j) (hhi : j ≤ 9) : (romRcon j).map xtime = romRcon (j + 1) := by
  have htable : ∀ i < 10, 1 ≤ i → (romRcon i).map xtime = romRcon (i + 1) := by decide
  exact htable j (by omega) hlo

/-- Settles O41: the entries of the table and the indices outside it. -/
theorem rconFailsOutsideItsTable : Obligations.RconFailsOutsideItsTable := by
  refine ⟨fun j hlo hhi => ?_, rcon_eq_none, by decide, romRcon_map_xtime, by decide, by decide⟩
  obtain ⟨b, hb⟩ := exists_romRcon j hlo hhi
  exact ⟨b, hb, rcon_of_romRcon j b hb⟩

end Sys2Proof.Machine
end

section
/-! The laws of the round transformations (41_round_forward.md and 42_round_inverse.md): the matrix form of MixColumns, and each
inverse transformation against its forward one, byte by byte. -/

namespace Sys2Proof.Machine

/-! ### ShiftRows and SubBytes -/

@[simp] theorem romInvSbox_romSbox (x : Byte) : romInvSbox (romSbox x) = x := by
  obtain ⟨h, -⟩ := sboxTablesUndoOneAnother x
  exact h

@[simp] theorem romSbox_romInvSbox (x : Byte) : romSbox (romInvSbox x) = x := by
  obtain ⟨-, h⟩ := sboxTablesUndoOneAnother x
  exact h

@[simp] theorem invSubBytes_subBytes (st : Block) : invSubBytes (subBytes st) = st :=
  state_ext _ _ fun r c hr hc => by simp [hr, hc]

@[simp] theorem subBytes_invSubBytes (st : Block) : subBytes (invSubBytes st) = st :=
  state_ext _ _ fun r c hr hc => by simp [hr, hc]

theorem mod_four_lt (n : Nat) : n % 4 < 4 := Nat.mod_lt n (by decide)

@[simp] theorem invShiftRows_shiftRows (st : Block) : invShiftRows (shiftRows st) = st :=
  state_ext _ _ fun r c hr hc => by
    have hcol : ((c + 4 - r) % 4 + r) % 4 = c := by omega
    rw [stateByte_invShiftRows _ r c hr hc, stateByte_shiftRows _ r _ hr (mod_four_lt _), hcol]

@[simp] theorem shiftRows_invShiftRows (st : Block) : shiftRows (invShiftRows st) = st :=
  state_ext _ _ fun r c hr hc => by
    have hcol : ((c + r) % 4 + 4 - r) % 4 = c := by omega
    rw [stateByte_shiftRows _ r c hr hc, stateByte_invShiftRows _ r _ hr (mod_four_lt _), hcol]

theorem subBytes_shiftRows (st : Block) : subBytes (shiftRows st) = shiftRows (subBytes st) :=
  state_ext _ _ fun r c hr hc => by
    rw [stateByte_subBytes _ r c hr hc, stateByte_shiftRows _ r c hr hc, stateByte_shiftRows _ r c hr hc,
      stateByte_subBytes _ r _ hr (mod_four_lt _)]

theorem stateByte_iterate_shiftRows (n : Nat) (st : Block) (r c : Nat) (hr : r < 4) (hc : c < 4) :
    stateByte (shiftRows^[n] st) r c = stateByte st r ((c + n * r) % 4) := by
  induction n generalizing c with
  | zero => rw [Function.iterate_zero_apply, Nat.zero_mul, Nat.add_zero, Nat.mod_eq_of_lt hc]
  | succ n ih =>
    rw [Function.iterate_succ_apply', stateByte_shiftRows _ r c hr hc, ih _ (mod_four_lt _), Nat.mod_add_mod,
      Nat.add_assoc, Nat.succ_mul, Nat.add_comm r]

theorem iterate_four_shiftRows (st : Block) : shiftRows^[4] st = st :=
  state_ext _ _ fun r c hr hc => by
    have hcol : (c + 4 * r) % 4 = c := by omega
    rw [stateByte_iterate_shiftRows 4 st r c hr hc, hcol]

/-- Settles O47: SubBytes keeps the places of the bytes, and four turns of row `r` by `r` are whole turns. -/
theorem shiftRowsCommutesWithSubBytes : Obligations.ShiftRowsCommutesWithSubBytes :=
  fun st => ⟨subBytes_shiftRows st, iterate_four_shiftRows st⟩

/-! ### MixColumns -/

/-- The bytes of a column are the same from any row on. -/
theorem column_sum_eq (a : Nat → Byte) (i : Nat) (hi : i < 4) :
    a 0 ^^^ a 1 ^^^ a 2 ^^^ a 3 = a i ^^^ (a ((i + 1) % 4) ^^^ a ((i + 2) % 4) ^^^ a ((i + 3) % 4)) := by
  interval_cases i <;> simp only [Nat.reduceAdd, Nat.reduceMod] <;> ac_rfl

/-- The XOR form of rule R82 is the matrix form of rule R84: `a_i` cancels out of the sum of the column. -/
theorem mixByte_eq_mixByteMatrix (a : Nat → Byte) (i : Nat) (hi : i < 4) : mixByte a i = mixByteMatrix a i := by
  have hcancel : ∀ x y : Byte, x ^^^ (x ^^^ y) = y := fun x y => by
    rw [← BitVec.xor_assoc, BitVec.xor_self, BitVec.zero_xor]
  rw [mixByte, mixByteMatrix, column_sum_eq a i hi, hcancel, xtime_xor, mul3]
  ac_rfl

/-- Settles O45, by the bytes of MixColumns. -/
theorem mixColumnsIsTheMatrixProduct : Obligations.MixColumnsIsTheMatrixProduct := fun st r c hr hc => by
  rw [stateByte_mixColumns st r c hr hc, mixByte_eq_mixByteMatrix _ r hr]

/-! ### MixColumns and InvMixColumns as circulant matrices -/

/-- Row `i` of the circulant matrix of `k0, k1, k2, k3` times the column `a`. -/
def circulantByte (k0 k1 k2 k3 : Byte) (a : Nat → Byte) (i : Nat) : Byte :=
  galoisMult8 (a i) k0 ^^^ galoisMult8 (a ((i + 1) % 4)) k1 ^^^ galoisMult8 (a ((i + 2) % 4)) k2 ^^^
    galoisMult8 (a ((i + 3) % 4)) k3

theorem mixByte_eq_circulantByte (a : Nat → Byte) (i : Nat) (hi : i < 4) :
    mixByte a i = circulantByte 0x02#8 0x03#8 0x01#8 0x01#8 a i := by
  have hmul3 : ∀ b, mul3 b = galoisMult8 b 0x03#8 := fun b => by
    obtain ⟨-, h, -⟩ := fixedMultipliersAreProductsByConstants b
    exact h
  rw [mixByte_eq_mixByteMatrix a i hi, mixByteMatrix, circulantByte, hmul3]
  simp only [galoisMult8_two, galoisMult8_one]

theorem invMixByte_eq_circulantByte (a : Nat → Byte) (i : Nat) :
    invMixByte a i = circulantByte 0x0e#8 0x0b#8 0x0d#8 0x09#8 a i := by
  obtain ⟨-, -, -, -, -, hE⟩ := fixedMultipliersAreProductsByConstants (a i)
  obtain ⟨-, -, -, hB, -⟩ := fixedMultipliersAreProductsByConstants (a ((i + 1) % 4))
  obtain ⟨-, -, -, -, hD, -⟩ := fixedMultipliersAreProductsByConstants (a ((i + 2) % 4))
  obtain ⟨-, -, h9, -⟩ := fixedMultipliersAreProductsByConstants (a ((i + 3) % 4))
  rw [invMixByte, circulantByte, hE, hB, hD, h9]

/-- The product of two circulant matrices is the circulant matrix of the products of their first rows. -/
theorem circulantByte_circulantByte (k0 k1 k2 k3 l0 l1 l2 l3 : Byte) (a : Nat → Byte) (i : Nat) (hi : i < 4) :
    circulantByte k0 k1 k2 k3 (circulantByte l0 l1 l2 l3 a) i =
      circulantByte
        (galoisMult8 l0 k0 ^^^ galoisMult8 l3 k1 ^^^ galoisMult8 l2 k2 ^^^ galoisMult8 l1 k3)
        (galoisMult8 l1 k0 ^^^ galoisMult8 l0 k1 ^^^ galoisMult8 l3 k2 ^^^ galoisMult8 l2 k3)
        (galoisMult8 l2 k0 ^^^ galoisMult8 l1 k1 ^^^ galoisMult8 l0 k2 ^^^ galoisMult8 l3 k3)
        (galoisMult8 l3 k0 ^^^ galoisMult8 l2 k1 ^^^ galoisMult8 l1 k2 ^^^ galoisMult8 l0 k3) a i := by
  have hturn : ∀ m n, ((i + m) % 4 + n) % 4 = (i + (m + n)) % 4 := fun m n => by omega
  have hfour : (i + 4) % 4 = i := by omega
  have hfive : (i + 5) % 4 = (i + 1) % 4 := by omega
  have hsix : (i + 6) % 4 = (i + 2) % 4 := by omega
  simp only [circulantByte, hturn, Nat.reduceAdd, hfour, hfive, hsix, xor_galoisMult8, galoisMult8_xor, galoisMult8_assoc]
  ac_rfl

theorem circulantByte_identity (a : Nat → Byte) (i : Nat) : circulantByte 0x01#8 0x00#8 0x00#8 0x00#8 a i = a i := by
  simp [circulantByte]

theorem circulantByte_congr (k0 k1 k2 k3 : Byte) (a b : Nat → Byte) (i : Nat) (hi : i < 4) (h : ∀ j < 4, a j = b j) :
    circulantByte k0 k1 k2 k3 a i = circulantByte k0 k1 k2 k3 b i := by
  simp only [circulantByte, h i hi, h _ (Nat.mod_lt _ (show 4 > 0 by decide))]

theorem mixByte_congr (a b : Nat → Byte) (i : Nat) (hi : i < 4) (h : ∀ j < 4, a j = b j) : mixByte a i = mixByte b i := by
  rw [mixByte_eq_circulantByte a i hi, mixByte_eq_circulantByte b i hi, circulantByte_congr _ _ _ _ a b i hi h]

theorem invMixByte_congr (a b : Nat → Byte) (i : Nat) (hi : i < 4) (h : ∀ j < 4, a j = b j) :
    invMixByte a i = invMixByte b i := by
  rw [invMixByte_eq_circulantByte, invMixByte_eq_circulantByte, circulantByte_congr _ _ _ _ a b i hi h]

/-- The matrices of MixColumns and InvMixColumns are inverse to one another (rules R82 and R92). -/
theorem invMixByte_mixByte (a : Nat → Byte) (i : Nat) (hi : i < 4) : invMixByte (mixByte a) i = a i := by
  rw [invMixByte_congr _ _ i hi (mixByte_eq_circulantByte a), invMixByte_eq_circulantByte,
    circulantByte_circulantByte _ _ _ _ _ _ _ _ a i hi]
  exact circulantByte_identity a i

theorem mixByte_invMixByte (a : Nat → Byte) (i : Nat) (hi : i < 4) : mixByte (invMixByte a) i = a i := by
  rw [mixByte_congr _ _ i hi fun j _ => invMixByte_eq_circulantByte a j, mixByte_eq_circulantByte _ i hi,
    circulantByte_circulantByte _ _ _ _ _ _ _ _ a i hi]
  exact circulantByte_identity a i

@[simp] theorem invMixColumns_mixColumns (st : Block) : invMixColumns (mixColumns st) = st :=
  state_ext _ _ fun r c hr hc => by
    rw [stateByte_invMixColumns _ r c hr hc, invMixByte_congr _ _ r hr fun j hj => stateByte_mixColumns st j c hj hc]
    exact invMixByte_mixByte _ r hr

@[simp] theorem mixColumns_invMixColumns (st : Block) : mixColumns (invMixColumns st) = st :=
  state_ext _ _ fun r c hr hc => by
    rw [stateByte_mixColumns _ r c hr hc, mixByte_congr _ _ r hr fun j hj => stateByte_invMixColumns st j c hj hc]
    exact mixByte_invMixByte _ r hr

/-- Settles O46, one pair of transformations after another. -/
theorem inverseTransformationsUndoTheForwardOnes : Obligations.InverseTransformationsUndoTheForwardOnes := fun st =>
  ⟨invShiftRows_shiftRows st, shiftRows_invShiftRows st, invSubBytes_subBytes st, subBytes_invSubBytes st,
    invMixColumns_mixColumns st, mixColumns_invMixColumns st⟩

end Sys2Proof.Machine
end

section
/-! The words of the schedule (43_key_expand.md, rules R105 to R108), which key bytes they depend on (20_memory.md, rule R45), and
the two cipher functions as inverses of one another (44_block_cipher.md, section 1). -/

namespace Sys2Proof.Machine

/-- Settles O50: the round constants of a legal key length are in the table, and the illegal one asks for none. -/
theorem rconRangeNeverArises : Obligations.RconRangeNeverArises := keyExpand_rconErr

/-! ### The recurrence -/

/-- The loop body of rule R105, branch by branch: what is added to the word `nk` places back. -/
theorem exists_temp_of_nextWord (nk i : Nat) (prev back w : Word) (h : nextWord nk i prev back = some w) :
    ∃ temp, w = back ^^^ temp ∧
      (i % nk = 0 → ∃ rc, rcon (i / nk) = some rc ∧ temp = subWord (rotWord prev) ^^^ rc) ∧
      (i % nk ≠ 0 → nk > 6 → i % nk = 4 → temp = subWord prev) ∧
      (i % nk ≠ 0 → ¬ (nk > 6 ∧ i % nk = 4) → temp = prev) := by
  unfold nextWord at h
  split at h
  · rename_i hzero
    obtain ⟨rc, hrc, rfl⟩ := Option.map_eq_some_iff.mp h
    exact ⟨_, rfl, fun _ => ⟨rc, hrc, rfl⟩, fun hne => absurd hzero hne, fun hne => absurd hzero hne⟩
  · rename_i hzero
    split at h
    · rename_i hfour
      cases h
      exact ⟨_, rfl, fun h0 => absurd h0 hzero, fun _ _ _ => rfl, fun _ hn => absurd hfour hn⟩
    · rename_i hfour
      cases h
      exact ⟨_, rfl, fun h0 => absurd h0 hzero, fun _ h6 h4 => absurd ⟨h6, h4⟩ hfour, fun _ _ => rfl⟩

/-- Word `i` on `w_out` is word `i` of the schedule, or 0 beyond its end (rule R107). -/
theorem wOutWord_keyExpand (key : KeyBus) (k : KeyLen) (ws : List Word) (h : scheduleWords key k.code = some ws) (i : Nat)
    (hi : i < 60) : wOutWord (keyExpand key k.code).wOut i = ws.getD i 0#32 := by
  rw [keyExpand_of_scheduleWords key k ws h]
  refine wOutWord_packSchedule ws ?_ i hi
  rw [scheduleWords_length key k.code ws h]
  exact scheduleLength_le k.code

theorem scheduleWords_getD_of_key (key : KeyBus) (klen : Klen) (ws : List Word) (h : scheduleWords key klen = some ws)
    (i : Nat) (hi : i < nkOf klen) : ws.getD i 0#32 = keyWord key i := by
  rw [expandWords_prefix _ _ _ _ h i (by rwa [seedWords_length]), seedWords_getD key klen i hi]

theorem nextWord_scheduleWords (key : KeyBus) (klen : Klen) (ws : List Word) (h : scheduleWords key klen = some ws) (i : Nat)
    (hpos : 0 < nkOf klen) (hlo : nkOf klen ≤ i) (hhi : i < scheduleLength klen) :
    nextWord (nkOf klen) i (ws.getD (i - 1) 0#32) (ws.getD (i - nkOf klen) 0#32) = some (ws.getD i 0#32) := by
  have hseed := seedWords_length key klen
  exact expandWords_next _ _ _ _ hpos hseed.ge h i (by omega) (by omega)

/-- Settles O48: the words on `w_out` are those of the loop, which obey the recurrence, and zeros. -/
theorem scheduleWordsFollowTheRecurrence : Obligations.ScheduleWordsFollowTheRecurrence := by
  intro key klen hlegal
  obtain ⟨k, rfl⟩ := exists_keyLen_of_legal klen hlegal
  obtain ⟨ws, hws⟩ := exists_scheduleWords key k
  have hword := wOutWord_keyExpand key k ws hws
  have hlen : scheduleLength k.code ≤ 60 := scheduleLength_le k.code
  have hnk : nkOf k.code ≤ scheduleLength k.code := nkOf_le_scheduleLength k.code
  have hpos : 0 < nkOf k.code := by cases k <;> decide
  refine ⟨fun i hi => ?_, fun i hlo hhi => ?_, fun i hlo hhi => ?_⟩
  · rw [hword i (by omega), scheduleWords_getD_of_key key _ ws hws i hi, keyWord]
  · have hsched : i < scheduleLength k.code := hhi
    rw [hword i (by omega), hword (i - nkOf k.code) (by omega), hword (i - 1) (by omega)]
    exact exists_temp_of_nextWord _ _ _ _ _ (nextWord_scheduleWords key _ ws hws i hpos hlo hsched)
  · have hbeyond : ws.length ≤ i := by
      rw [scheduleWords_length key _ ws hws]
      exact hlo
    rw [hword i hhi, List.getD_eq_default _ _ hbeyond]

/-! ### The key bytes that are read -/

/-- Bit `b` of key word `i` is in byte `4i + 3 - b/8` (rules R45 and R48). -/
theorem keyWord_congr_of_bytes (key key' : KeyBus) (i : Nat) (hi : i < 8)
    (h : ∀ r < 4, keyByte key (4 * i + r) = keyByte key' (4 * i + r)) : keyWord key i = keyWord key' i := by
  apply BitVec.eq_of_getLsbD_eq
  intro b hb
  have hbyte := congrArg (·.getLsbD (b % 8)) (h (3 - b / 8) (by omega))
  have hbit : b % 8 < 8 := Nat.mod_lt _ (by decide)
  have hpos : 248 - 8 * (4 * i + (3 - b / 8)) + b % 8 = 224 - 32 * i + b := by omega
  simpa [keyByte, keyWord, BitVec.getLsbD_extractLsb', hb, hbit, hpos] using hbyte

theorem aesDec_congr (b : Block) (key key' : KeyBus) (k : KeyLen) (h : ∀ i < nkOf k.code, keyWord key i = keyWord key' i) :
    aesDec b key k = aesDec b key' k := by
  rw [aesDec, aesDec, keyExpand_congr key key' k h]

theorem bytes_eq_four_mul_nkOf (k : KeyLen) : k.bytes = 4 * nkOf k.code := by
  cases k <;> decide

theorem nkOf_le_eight (klen : Klen) : nkOf klen ≤ 8 := by
  revert klen
  decide

/-- Settles O51: the key expansion reads the first Nk key words, which are the first 4·Nk key bytes. -/
theorem keyBytesAboveTheKeyAreIgnored : Obligations.KeyBytesAboveTheKeyAreIgnored := by
  intro k key key' h
  have hnk := nkOf_le_eight k.code
  have hbytes := bytes_eq_four_mul_nkOf k
  have hword : ∀ i < nkOf k.code, keyWord key i = keyWord key' i := fun i hi =>
    keyWord_congr_of_bytes key key' i (by omega) fun r hr => h (4 * i + r) (by omega)
  exact ⟨keyExpand_congr key key' k hword, fun b => ⟨aesEnc_congr b key key' k hword, aesDec_congr b key key' k hword⟩⟩

/-! ### The cipher functions undo one another -/

/-- Where `g` takes back what `f` did, up to the change of view `m`, a list of `f`s is taken back in the reverse order. -/
theorem foldl_reverse_foldl {α β : Type} (f g : α → β → α) (m : α → α) (h : ∀ x j, g (m (f x j)) j = m x) (x : α)
    (js : List β) : js.reverse.foldl g (m (js.foldl f x)) = m x := by
  induction js generalizing x with
  | nil => rfl
  | cons j js ih => rw [List.reverse_cons, List.foldl_concat, List.foldl_cons, ih, h]

/-- A decryption round takes an encryption round back, both seen between ShiftRows and the round key. -/
theorem decRound_encRound (w : Schedule) (st : Block) (j : Fin 15) :
    decRound w (shiftRows (subBytes (encRound w st j))) j = shiftRows (subBytes st) := by
  simp [decRound, encRound]

/-- An encryption round takes a decryption round back, both seen between InvSubBytes and the round key. -/
theorem encRound_decRound (w : Schedule) (st : Block) (j : Fin 15) :
    encRound w (invSubBytes (invShiftRows (decRound w st j))) j = invSubBytes (invShiftRows st) := by
  simp [decRound, encRound]

theorem decryption_of_encryption (w : Schedule) (nr : Fin 15) (b : Block) :
    decFinal w ((fullRounds nr).reverse.foldl (decRound w)
      (addRoundKey w (encFinal w nr ((fullRounds nr).foldl (encRound w) (addRoundKey w b 0))) nr)) = b := by
  rw [encFinal, addRoundKey_addRoundKey,
    foldl_reverse_foldl (encRound w) (decRound w) (fun st => shiftRows (subBytes st)) (decRound_encRound w), decFinal,
    invShiftRows_shiftRows, invSubBytes_subBytes, addRoundKey_addRoundKey]

theorem encryption_of_decryption (w : Schedule) (nr : Fin 15) (b : Block) :
    encFinal w nr ((fullRounds nr).foldl (encRound w)
      (addRoundKey w (decFinal w ((fullRounds nr).reverse.foldl (decRound w) (addRoundKey w b nr))) 0)) = b := by
  have hrounds := foldl_reverse_foldl (decRound w) (encRound w) (fun st => invSubBytes (invShiftRows st))
    (encRound_decRound w) (addRoundKey w b nr) (fullRounds nr).reverse
  rw [List.reverse_reverse] at hrounds
  rw [decFinal, addRoundKey_addRoundKey, hrounds, encFinal, subBytes_invSubBytes, shiftRows_invShiftRows,
    addRoundKey_addRoundKey]

theorem aesDec_aesEnc (b : Block) (key : KeyBus) (k : KeyLen) : aesDec (aesEnc b key k) key k = b :=
  decryption_of_encryption (scheduleOf (keyExpand key k.code).wOut) (roundsOf k) b

theorem aesEnc_aesDec (b : Block) (key : KeyBus) (k : KeyLen) : aesEnc (aesDec b key k) key k = b :=
  encryption_of_decryption (scheduleOf (keyExpand key k.code).wOut) (roundsOf k) b

/-- Settles O52: round against round, from the inside out. -/
theorem decryptionAndEncryptionUndoOneAnother : Obligations.DecryptionAndEncryptionUndoOneAnother :=
  fun b key k => ⟨aesDec_aesEnc b key k, aesEnc_aesDec b key k⟩

/-! ### The decrypting commands -/

/-- Settles O31: the three decryptions of `commandRule`, the key words that the key expansion reads, the inverse law, and the
values computed. -/
theorem decryptCommandsFollowTheirRules : Obligations.DecryptCommandsFollowTheirRules := by
  refine ⟨commandRule .aes128 .decrypt, commandRule .aes192 .decrypt, commandRule .aes256 .decrypt,
    fun b key key' h => ?_, fun b key key' h => ?_, fun b key => aesDec_aesEnc b key .aes128, ?_⟩
  · exact aesDec_congr b key key' .aes128 (keyWord_congr_of_key key key' 4 (by decide) h)
  · exact aesDec_congr b key key' .aes192 (keyWord_congr_of_key key key' 6 (by decide) h)
  · decide +kernel

end Sys2Proof.Machine
end

section
/-! The cycle schedule of a legal command (44_block_cipher.md, rule R142), row by row, up to the machine that is ready again. -/

namespace Sys2Proof.Machine

/-! ### Runs -/

theorem State.OnTrack.of_steps {s t : State} (h : s.OnTrack) (n : Nat) (hn : steps n s = .next t) : t.OnTrack := by
  induction n generalizing s with
  | zero =>
    cases hn
    exact h
  | succ n ih =>
    obtain ⟨u, hu⟩ := h.exists_step
    rw [steps_succ n s u hu] at hn
    exact ih (h.of_edge (.of_step hu)) hn

/-- Every edge uses up the port levels of one cycle. -/
theorem portsAt_of_step {s t : State} (h : step s = .next t) (m : Nat) : t.portsAt m = s.portsAt (m + 1) := by
  rw [← State.nextCycle_portsAt]
  exact State.portsAt_congr (Edge.of_step h).host_eq m

theorem State.ready.onTrack {s : State} (h : s.ready) : s.OnTrack := by
  obtain ⟨hseen, hf⟩ := h
  exact .of_idle hseen hf

/-- The accepting edge E0 of a legal command. -/
theorem State.ready.step_eq_accept {s : State} (h : s.ready) (k : KeyLen) (op : Op) (hc : s.command = commandOf k op)
    (hr : s.ports.rst = false) : step s = .next (s.accept k op).nextCycle :=
  step_of_exec s _ hr (by rw [hc, exec_commandOf_of_ready s k op h])

/-! ### The rows of the schedule -/

/-- `t` is the machine `n` edges after the state `s` just after acceptance, as the schedule of rule R142 has it. -/
structure State.ScheduleRow (s : State) (n : Nat) (t : State) : Prop where
  fsm : t.fsm =
    if n = 0 then .keyexp
    else if n = 1 then .init
    else if n ≤ (nrOf s.klenR).val then .round
    else if n = (nrOf s.klenR).val + 1 then .final
    else .idle
  rndKept : n ≤ 1 → t.rnd = s.rnd
  rndCounted : 2 ≤ n → t.rnd.toNat = indexAfter s.opR (nrOf s.klenR) (min (n - 2) ((nrOf s.klenR).val - 1))
  done : t.done = true ↔ n = (nrOf s.klenR).val + 2
  sched : 1 ≤ n → t.sched = s.ownSchedule

theorem State.JustAccepted.row_keyexp {s : State} (hs : s.JustAccepted) : s.ScheduleRow 0 s where
  fsm := hs.inKeyexp
  rndKept _ := rfl
  rndCounted h := by omega
  done := by simp [hs.notDone]
  sched h := by omega

theorem State.JustAccepted.exists_row_init {s : State} (hs : s.JustAccepted) (hr : s.noReset 1) :
    ∃ t, steps 1 s = .next t ∧ s.ScheduleRow 1 t := by
  obtain ⟨t, ht, -, hf, -, hsched, hdone⟩ := hs.exists_step hr
  refine ⟨t, steps_one s t ht, ?_⟩
  exact {
    fsm := hf
    rndKept := fun _ => (Edge.of_step ht).rnd_eq (by simp [hs.inKeyexp])
    rndCounted := fun h => by omega
    done := by simp [hdone]
    sched := fun _ => hsched }

/-- The cycles of ROUND and FINAL. -/
theorem State.JustAccepted.exists_row_rounds {s : State} (hs : s.JustAccepted) (n : Nat) (hn : n ≤ (nrOf s.klenR).val - 1)
    (hr : s.noReset (2 + n)) : ∃ t, steps (2 + n) s = .next t ∧ s.ScheduleRow (2 + n) t := by
  have hnr := two_le_nrOf _ hs.klenLegal
  obtain ⟨t, u, hu, hround, hrounds⟩ := hs.exists_after_rounds n hn hr
  refine ⟨u, hu, ?_⟩
  exact {
    fsm := by
      rw [hrounds.fsm, hround.kept.klenR]
      by_cases hmore : n < (nrOf s.klenR).val - 1
      · rw [if_pos hmore, if_neg (by omega), if_neg (by omega), if_pos (by omega)]
      · rw [if_neg hmore, if_neg (by omega), if_neg (by omega), if_neg (by omega), if_pos (by omega)]
    rndKept := fun h => by omega
    rndCounted := fun _ => by
      rw [hrounds.rnd, hround.kept.opR, hround.kept.klenR, Nat.add_sub_cancel_left, Nat.min_eq_left hn]
    done := by
      rw [hrounds.done hround.done]
      exact ⟨nofun, fun h => by omega⟩
    sched := fun _ => hrounds.sched.trans hround.sched }

/-- The cycle after the FINAL edge, in which the host sees `done`. -/
theorem State.JustAccepted.exists_row_done {s : State} (hs : s.JustAccepted) (hr : s.noReset ((nrOf s.klenR).val + 2)) :
    ∃ t, steps ((nrOf s.klenR).val + 2) s = .next t ∧ s.ScheduleRow ((nrOf s.klenR).val + 2) t := by
  have hnr := two_le_nrOf _ hs.klenLegal
  obtain ⟨t, u, hu, hround, hrounds⟩ := hs.exists_after_rounds ((nrOf s.klenR).val - 1) le_rfl fun m hm => hr m (by omega)
  have hkept := hround.kept.trans hrounds.kept
  have hrst : u.ports.rst = false := by
    rw [hkept.ports]
    exact hr _ (by omega)
  rw [← hround.kept.klenR] at hrounds
  have hfinal := step_of_exec u _ hrst
    (exec_of_final u.command u (hkept.resetSeen.trans hs.afterReset) hrounds.fsm_of_last)
  obtain ⟨-, -, -, hrnd, hsched, -⟩ := finalEdge_keeps u
  have hlen : (nrOf s.klenR).val + 2 = 2 + ((nrOf s.klenR).val - 1) + 1 := by omega
  refine ⟨(finalEdge u).nextCycle, by rw [hlen, steps_add _ 1 s u hu, steps_one u _ hfinal], ?_⟩
  exact {
    fsm := by
      rw [if_neg (by omega), if_neg (by omega), if_neg (by omega), if_neg (by omega)]
      rfl
    rndKept := fun h => by omega
    rndCounted := fun _ => by
      rw [State.nextCycle_rnd, hrnd, hrounds.rnd, hround.kept.opR, hround.kept.klenR, Nat.add_sub_cancel,
        Nat.min_eq_right (Nat.sub_le _ 1)]
    done := ⟨fun _ => rfl, fun _ => rfl⟩
    sched := fun _ => hsched.trans (hrounds.sched.trans hround.sched) }

theorem State.JustAccepted.exists_row {s : State} (hs : s.JustAccepted) (n : Nat) (hn : n ≤ (nrOf s.klenR).val + 2)
    (hr : s.noReset n) : ∃ t, steps n s = .next t ∧ s.ScheduleRow n t := by
  by_cases hlast : n = (nrOf s.klenR).val + 2
  · subst hlast
    exact hs.exists_row_done hr
  · match n, hr with
    | 0, _ => exact ⟨s, rfl, hs.row_keyexp⟩
    | 1, hr => exact hs.exists_row_init hr
    | n + 2, hr =>
      rw [Nat.add_comm n 2] at hr ⊢
      exact hs.exists_row_rounds n (by omega) hr

theorem State.ScheduleRow.busy_iff {s t : State} {n : Nat} (h : s.ScheduleRow n t) (hnr : 2 ≤ (nrOf s.klenR).val) :
    t.busy = true ↔ n < (nrOf s.klenR).val + 2 := by
  rw [State.busy_iff, h.fsm]
  split_ifs <;> simp <;> omega

theorem State.ScheduleRow.rnd_of_encrypt {s t : State} {n : Nat} (h : s.ScheduleRow n t) (ho : s.opR = .encrypt)
    (hn : 2 ≤ n) (hnr : 2 ≤ (nrOf s.klenR).val) : t.rnd = BitVec.ofNat 4 (min (n - 1) (nrOf s.klenR).val) := by
  have hrnd := h.rndCounted hn
  rw [ho, indexAfter] at hrnd
  apply BitVec.eq_of_toNat_eq
  rw [hrnd, BitVec.toNat_ofNat]
  omega

theorem State.ScheduleRow.rnd_of_decrypt {s t : State} {n : Nat} (h : s.ScheduleRow n t) (ho : s.opR = .decrypt)
    (hn : 2 ≤ n) (hnr : 2 ≤ (nrOf s.klenR).val) : t.rnd = BitVec.ofNat 4 ((nrOf s.klenR).val + 1 - n) := by
  have hrnd := h.rndCounted hn
  rw [ho, indexAfter] at hrnd
  apply BitVec.eq_of_toNat_eq
  rw [hrnd, BitVec.toNat_ofNat]
  omega

end Sys2Proof.Machine
end

section
/-! The schedule of a whole command as its host sees it (44_block_cipher.md, rule R142), and `start` held high
(70_reset_and_hazards.md, rule R175). -/

namespace Sys2Proof.Machine

/-- After the Nr+2 edges that follow its acceptance, the command's result is on `blk_out`, and the machine is ready in the `done`
cycle. -/
theorem State.ready.exists_result {s : State} (h : s.ready) (k : KeyLen) (op : Op) (hc : s.command = commandOf k op)
    (hr : s.noReset ((roundsOf k).val + 3)) :
    ∃ t, steps ((roundsOf k).val + 3) s = .next t ∧ t.ready ∧ t.done = true ∧
      t.blkOut = cipher op s.ports.blkIn s.ports.keyIn k := by
  have ha := h.accept_justAccepted k op
  have hstep := h.step_eq_accept k op hc (by rw [State.ports_eq_portsAt_zero]; exact hr 0 (by omega))
  obtain ⟨t, ht, hblk, hf, hdone, -⟩ := ha.exists_result k rfl fun m hm => by
    rw [State.nextCycle_portsAt]
    exact hr (m + 1) (by omega)
  have hrun : steps ((roundsOf k).val + 3) s = .next t := (steps_succ _ s _ hstep).trans ht
  exact ⟨t, hrun, ⟨(h.onTrack.of_steps _ hrun).afterReset, hf⟩, hdone, hblk⟩

/-- Settles O32: the rows of the schedule after the accepting edge, and the result after the last one. -/
theorem cycleScheduleOfALegalCommand : Obligations.CycleScheduleOfALegalCommand := by
  intro s k op h hc hr
  refine ⟨fun n hn => ?_, ?_⟩
  · have ha := h.accept_justAccepted k op
    have hnr : 2 ≤ (roundsOf k).val := two_le_nrOf _ ha.klenLegal
    have hstep := h.step_eq_accept k op hc (by rw [State.ports_eq_portsAt_zero]; exact hr 0 (by omega))
    obtain ⟨t, ht, hrow⟩ := ha.exists_row n hn fun m hm => by
      rw [State.nextCycle_portsAt]
      exact hr (m + 1) (by omega)
    refine ⟨t, (steps_succ n s _ hstep).trans ht, hrow.fsm, ?_, hrow.busy_iff hnr, hrow.done, hrow.sched⟩
    by_cases hkept : n ≤ 1
    · rw [if_pos hkept]
      exact hrow.rndKept hkept
    · rw [if_neg hkept]
      cases op with
      | encrypt => exact hrow.rnd_of_encrypt rfl (by omega) hnr
      | decrypt => exact hrow.rnd_of_decrypt rfl (by omega) hnr
  · obtain ⟨t, ht, hready, -, hblk⟩ := h.exists_result k op hc hr
    have ⟨_, hf⟩ := hready
    exact ⟨t, ht, hready, hblk, fun v => done_falls_in_idle t v hf⟩

/-! ### `start` held high -/

theorem portsAt_of_steps {s t : State} (n : Nat) (h : steps n s = .next t) (m : Nat) : t.portsAt m = s.portsAt (n + m) := by
  induction n generalizing s with
  | zero =>
    cases h
    rw [Nat.zero_add]
  | succ n ih =>
    cases hstep : step s with
    | next u =>
      rw [steps_succ n s u hstep] at h
      rw [ih h, portsAt_of_step hstep, Nat.add_right_comm]
    | fault r => simp [steps, hstep] at h
    | refused r => simp [steps, hstep] at h

/-- An edge in IDLE with `start = 1` takes a command, whatever `klen` says (rule R175). -/
theorem exists_step_of_start (s : State) (h : s.ready) (hr : s.ports.rst = false) (hs : s.ports.start = true) :
    ∃ t, step s = .next t ∧ (s.ports.klen ≠ 0b11#2 → t.busy = true) ∧
      (s.ports.klen = 0b11#2 → t.busy = false ∧ t.done = true ∧ t.err = true) := by
  by_cases hk : s.ports.klen = 0b11#2
  · exact ⟨_, step_of_illegal_ports s h hr hs hk, fun hne => absurd hk hne, fun _ => ⟨rfl, rfl, rfl⟩⟩
  · obtain ⟨k, hcode⟩ := exists_keyLen_of_legal _ hk
    exact ⟨_, step_of_legal_ports s k h hr hs hcode, fun _ => rfl, fun heq => absurd heq hk⟩

theorem State.ready.step_eq_reject {s : State} (h : s.ready) (op : Op) (hc : s.command = .bad op)
    (hr : s.ports.rst = false) : step s = .next (s.reject .klenInvalid).nextCycle :=
  step_of_exec s _ hr (by rw [hc, exec_bad_of_ready s op h])

/-- Settles O33: the machine is ready again in the `done` cycle of the command, or right after its rejection, with the same
command on its ports. -/
theorem heldStartIssuesTheCommandAgain : Obligations.HeldStartIssuesTheCommandAgain := by
  refine ⟨exists_step_of_start, fun s k op h hc hr hheld => ?_, fun s op h hc hr hheld => ?_⟩
  · obtain ⟨t, ht, hready, hdone, hblk⟩ := h.exists_result k op hc fun m hm => by rw [hheld m (by omega), hr]
    have hports : t.ports = s.ports := by
      rw [State.ports_eq_portsAt_zero, portsAt_of_steps _ ht, Nat.add_zero, hheld _ le_rfl]
    have hstep := hready.step_eq_accept k op ((State.command_congr hports).trans hc) (by rw [hports, hr])
    refine ⟨⟨t, ht, hready, hdone⟩, (t.accept k op).nextCycle, ?_, rfl, rfl, congrArg Ports.blkIn hports,
      congrArg Ports.keyIn hports, rfl, rfl, hblk⟩
    rw [steps_add _ 1 s t ht, steps_one t _ hstep]
  · have hstep := h.step_eq_reject op hc hr
    obtain ⟨hseen, -⟩ := h
    have hports : (s.reject .klenInvalid).nextCycle.ports = s.ports := (State.nextCycle_ports _).trans hheld
    have hcommand := (State.command_congr hports).trans hc
    have hready : (s.reject .klenInvalid).nextCycle.ready := ⟨hseen, rfl⟩
    exact ⟨_, _, hstep, rfl, rfl, hcommand, hready.step_eq_reject op hcommand (by rw [hports, hr]), rfl, rfl⟩

end Sys2Proof.Machine
end

section
/-! Program lines one after another as edges of the machine, and the expansion of WAIT (30_encoding.md, section 3, rule R68). -/

namespace Sys2Proof.Machine

/-! ### Lines as edges -/

@[simp] theorem State.withHost_host (s : State) (l : List Ports) : (s.withHost l).host = l := rfl

theorem State.OnTrack.withHost {s : State} (h : s.OnTrack) (l : List Ports) : (s.withHost l).OnTrack :=
  ⟨h.afterReset, h.klenLegal, h.roundIndex, h.finalRound⟩

theorem State.JustAccepted.withHost {s : State} (h : s.JustAccepted) (l : List Ports) : (s.withHost l).JustAccepted :=
  ⟨h.afterReset, h.inKeyexp, h.klenLegal, h.notDone⟩

theorem drive_eq_step (l : Line) (s : State) : drive l s = step (s.withHost (linePorts l :: s.host)) := rfl

theorem idleEffect_withHost (i : Instr) (s : State) (p : Ports) (l l' : List Ports) :
    idleEffect i (s.withHost (p :: l)) = (idleEffect i (s.withHost (p :: l'))).withHost (p :: l) := by
  cases i <;> rfl

/-- What the host drives in later cycles changes no register at this edge. -/
theorem step_withHost_cons (s : State) (p : Ports) (l l' : List Ports) :
    step (s.withHost (p :: l)) = andThen (step (s.withHost (p :: l'))) fun t => t.withHost l := by
  cases hp : p.rst with
  | true =>
    rw [step_of_rst (s.withHost (p :: l)) hp, step_of_rst (s.withHost (p :: l')) hp]
    rfl
  | false =>
    cases hb : s.busy with
    | true =>
      rw [step_withHost_of_busy s p l hb hp, step_withHost_of_busy s p l' hb hp, andThen_andThen]
      rfl
    | false =>
      have hf := s.not_busy_iff.mp hb
      rw [step_of_not_rst (s.withHost (p :: l)) hp, step_of_not_rst (s.withHost (p :: l')) hp, andThen_andThen]
      cases hseen : s.resetSeen with
      | false =>
        rw [clockEdge_before_reset _ (s.withHost (p :: l)) hseen, clockEdge_before_reset _ (s.withHost (p :: l')) hseen]
        rfl
      | true =>
        rw [clockEdge_idle _ (s.withHost (p :: l)) hseen hf, clockEdge_idle _ (s.withHost (p :: l')) hseen hf]
        exact congrArg (fun u => Host.Outcome.next (State.nextCycle u)) (idleEffect_withHost _ s p l l')

theorem host_of_drive {l : Line} {s t : State} (h : drive l s = .next t) : t.host = s.host := (Edge.of_step h).host_eq

/-- Driving lines one by one is running the machine with all their port levels put before the host's own. -/
theorem driveAll_eq_steps (ls : List Line) (s : State) :
    driveAll ls s = steps ls.length (s.withHost (ls.map linePorts ++ s.host)) := by
  induction ls generalizing s with
  | nil => rfl
  | cons l ls ih =>
    have hstep := step_withHost_cons s (linePorts l) (ls.map linePorts ++ s.host) s.host
    rw [← drive_eq_step] at hstep
    rw [driveAll, List.length_cons, List.map_cons, List.cons_append, steps, hstep]
    cases hd : drive l s with
    | next t =>
      rw [← host_of_drive hd]
      exact ih t
    | fault r => rfl
    | refused r => rfl

theorem driveAll_nopLines_eq_steps (n : Nat) (s : State) :
    driveAll (nopLines n) s = steps n (s.withHost (List.replicate n (linePorts nopLine) ++ s.host)) := by
  rw [driveAll_eq_steps, nopLines, List.length_replicate, List.map_replicate]

theorem noReset_withHost_nops (n : Nat) (s : State) :
    (s.withHost (List.replicate n (linePorts nopLine) ++ s.host)).noReset n := fun k hk => by
  have hnop : (s.withHost (List.replicate n (linePorts nopLine) ++ s.host)).portsAt k = linePorts nopLine := by
    simp [State.portsAt, List.getD_eq_getElem?_getD, List.getElem?_append_left, hk]
  rw [hnop]
  rfl

/-! ### WAIT -/

theorem exists_drive_of_driveAll_cons {l : Line} {ls : List Line} {s t : State} (h : driveAll (l :: ls) s = .next t) :
    ∃ u, drive l s = .next u ∧ driveAll ls u = .next t := by
  rw [driveAll] at h
  cases hd : drive l s with
  | next u => exact ⟨u, rfl, by rwa [hd] at h⟩
  | fault r => rw [hd] at h; cases h
  | refused r => rw [hd] at h; cases h

theorem driveAll_cons_of_drive {l : Line} {s u : State} (ls : List Line) (h : drive l s = .next u) :
    driveAll (l :: ls) s = driveAll ls u := by
  rw [driveAll, h]

theorem waitDone_succ (fuel : Nat) {s u : State} (h : drive nopLine s = .next u) :
    waitDone (fuel + 1) s = if s.done then some (.next u) else waitDone fuel u := by
  rw [waitDone, h]

/-- WAIT ends with the line in whose cycle `done` is first seen. -/
theorem waitDone_of_driveAll (n fuel : Nat) (s t : State) (hfuel : n < fuel) (ht : driveAll (nopLines (n + 1)) s = .next t)
    (hdone : ∀ m ≤ n, ∀ v, driveAll (nopLines m) s = .next v → (v.done = true ↔ m = n)) :
    waitDone fuel s = some (.next t) := by
  have hnow := hdone 0 (Nat.zero_le n) s rfl
  obtain ⟨u, hu, hrest⟩ := exists_drive_of_driveAll_cons ht
  induction n generalizing s u fuel with
  | zero =>
    cases hrest
    rw [← Nat.sub_add_cancel hfuel, waitDone_succ _ hu, if_pos (hnow.mpr rfl)]
  | succ n ih =>
    have hlater : ∀ m ≤ n, ∀ v, driveAll (nopLines m) u = .next v → (v.done = true ↔ m = n) := fun m hm v hv => by
      rw [hdone (m + 1) (by omega) v ((driveAll_cons_of_drive _ hu).trans hv), Nat.add_right_cancel_iff]
    have hwait : ¬ s.done = true := by
      rw [hnow]
      omega
    obtain ⟨v, hv, hrest'⟩ := exists_drive_of_driveAll_cons hrest
    rw [← Nat.sub_add_cancel (Nat.zero_lt_of_lt hfuel), waitDone_succ _ hu, if_neg hwait]
    exact ih (fuel - 1) u (by omega) hrest hlater (hlater 0 (Nat.zero_le n) u rfl) v hv hrest'

/-! ### The expansion after an accepted command -/

/-- What rule R68 says of the NOP lines after a command that left the machine in `t`: the host first sees `done` in the cycle of
line number `n`, with which WAIT ends. -/
def WaitsFor (n : Nat) (t : State) : Prop :=
  ∃ u, waitDone waitFuel t = some (.next u) ∧ driveAll (nopLines n) t = .next u ∧
    ∀ m, m < n → ∃ v, driveAll (nopLines m) t = .next v ∧ (v.done = true ↔ m + 1 = n)

/-- Enough for it: the machine goes on, and `done` is seen in that cycle and in none before. -/
theorem State.OnTrack.waitsFor {t : State} (h : t.OnTrack) (n : Nat) (hn : n < waitFuel)
    (hdone : ∀ m ≤ n, ∀ v, driveAll (nopLines m) t = .next v → (v.done = true ↔ m = n)) : WaitsFor (n + 1) t := by
  have hrun : ∀ m, ∃ v, driveAll (nopLines m) t = .next v := fun m => by
    rw [driveAll_nopLines_eq_steps]
    exact (h.withHost _).exists_steps m
  obtain ⟨u, hu⟩ := hrun (n + 1)
  refine ⟨u, waitDone_of_driveAll n _ t u hn hu hdone, hu, fun m hm => ?_⟩
  obtain ⟨v, hv⟩ := hrun m
  exact ⟨v, hv, by rw [hdone m (by omega) v hv, Nat.add_right_cancel_iff]⟩

/-- After a legal command `done` is seen in the cycle after the FINAL edge. -/
theorem State.JustAccepted.waitsFor {t : State} (h : t.JustAccepted) : WaitsFor ((nrOf t.klenR).val + 3) t := by
  have hnr := (nrOf t.klenR).isLt
  have htrack : t.OnTrack := by
    have hf := h.inKeyexp
    exact ⟨h.afterReset, fun _ => h.klenLegal, by simp [hf], by simp [hf]⟩
  refine htrack.waitsFor _ (show _ < 17 by omega) fun m hm v hv => ?_
  have hnops := h.withHost (List.replicate m (linePorts nopLine) ++ t.host)
  obtain ⟨w, hw, hrow⟩ := hnops.exists_row m hm (noReset_withHost_nops m t)
  rw [driveAll_nopLines_eq_steps, hw] at hv
  cases hv
  exact hrow.done

/-- After a rejected command `done` is seen at once. -/
theorem State.ready.waitsFor_one {t : State} (h : t.ready) (hd : t.done = true) : WaitsFor 1 t := by
  refine h.onTrack.waitsFor 0 (by decide) fun m hm v hv => ?_
  cases Nat.le_zero.mp hm
  cases hv
  simp [hd]

theorem command_withHost_line (s : State) (i : Instr) (blk key : List Byte) (l : List Ports) :
    (s.withHost (linePorts (.issue i blk key) :: l)).command = i :=
  (congrArg decode (issueWord_linePorts i blk key)).trans (decode_encode i)

theorem exists_drive_waitsFor_of_legal (s : State) (k : KeyLen) (op : Op) (blk key : List Byte) (h : s.ready) :
    ∃ t, drive (.issue (commandOf k op) blk key) s = .next t ∧ WaitsFor ((roundsOf k).val + 3) t := by
  have hready : (s.withHost (linePorts (.issue (commandOf k op) blk key) :: s.host)).ready := h
  have haccept := hready.step_eq_accept k op (command_withHost_line s _ blk key _) rfl
  exact ⟨_, haccept, (hready.accept_justAccepted k op).waitsFor⟩

theorem exists_drive_waitsFor_of_bad (s : State) (op : Op) (blk key : List Byte) (h : s.ready) :
    ∃ t, drive (.issue (.bad op) blk key) s = .next t ∧ WaitsFor 1 t := by
  have hready : (s.withHost (linePorts (.issue (.bad op) blk key) :: s.host)).ready := h
  obtain ⟨hseen, -⟩ := h
  have hrejected : ((s.withHost (linePorts (.issue (.bad op) blk key) :: s.host)).reject .klenInvalid).nextCycle.ready :=
    ⟨hseen, rfl⟩
  exact ⟨_, hready.step_eq_reject op (command_withHost_line s _ blk key _) rfl, hrejected.waitsFor_one rfl⟩

/-- The commands after which a WAIT ends. -/
theorem waitLength_cases (i : Instr) (n : Nat) (h : waitLength i = some n) :
    (∃ k op, i = commandOf k op ∧ n = (roundsOf k).val + 3) ∨ ∃ op, i = .bad op ∧ n = 1 := by
  cases i with
  | nop klen op => cases h
  | bad op => exact .inr ⟨op, rfl, (Option.some.inj h).symm⟩
  | enc128 => exact .inl ⟨.aes128, .encrypt, rfl, (Option.some.inj h).symm⟩
  | dec128 => exact .inl ⟨.aes128, .decrypt, rfl, (Option.some.inj h).symm⟩
  | enc192 => exact .inl ⟨.aes192, .encrypt, rfl, (Option.some.inj h).symm⟩
  | dec192 => exact .inl ⟨.aes192, .decrypt, rfl, (Option.some.inj h).symm⟩
  | enc256 => exact .inl ⟨.aes256, .encrypt, rfl, (Option.some.inj h).symm⟩
  | dec256 => exact .inl ⟨.aes256, .decrypt, rfl, (Option.some.inj h).symm⟩

/-- Settles O35, by whether the command is accepted or rejected. -/
theorem waitExpandsToTheStatedNopLines : Obligations.WaitExpandsToTheStatedNopLines := by
  intro s i blk key n h hi
  obtain ⟨k, op, rfl, rfl⟩ | ⟨op, rfl, rfl⟩ := waitLength_cases i n hi
  · obtain ⟨t, ht, u, hwait⟩ := exists_drive_waitsFor_of_legal s k op blk key h
    exact ⟨t, u, ht, hwait⟩
  · obtain ⟨t, ht, u, hwait⟩ := exists_drive_waitsFor_of_bad s op blk key h
    exact ⟨t, u, ht, hwait⟩

end Sys2Proof.Machine
end
